-- ==== Sys2Proof/Word.lean ====
section
/-! DEFINITION. The word of the machine (spec/00_scope.md R4): the one kind of value it holds.

A word is a two's-complement integer of XLEN bits and is always read as signed. XLEN is a parameter of the
machine (R3), so a word is held as the integer it stands for, and `InRange xlen` says that it has XLEN bits
(assumption log 1). -/

namespace Sys2Proof

/-- A word, as the signed integer it stands for (00_scope.md R4). -/
abbrev Word := Int

/-- `MIN = -2^(XLEN-1)` (00_scope.md R4). -/
def minWord (xlen : Nat) : Int := -((2 ^ (xlen - 1) : Nat) : Int)

/-- `MAX = 2^(XLEN-1) - 1` (00_scope.md R4). -/
def maxWord (xlen : Nat) : Int := ((2 ^ (xlen - 1) : Nat) : Int) - 1

/-- The integer `z` is a word of `xlen` bits (00_scope.md R4). -/
abbrev InRange (xlen : Nat) (z : Int) : Prop := minWord xlen ≤ z ∧ z ≤ maxWord xlen

end Sys2Proof
end

