-- ==== Sys2Proof/Config.lean ====
section
/-! DEFINITION. The parameters of the machine (spec/00_scope.md R3).

They form `Configuration`, which State holds (assumption log 2). Some are fixed by the build; the others,
`ResetInputs`, are presented to the reset event and latched by it (70_reset_and_hazards.md R170). -/

namespace Sys2Proof

/-- The 24 mnemonics of the closed opcode table (30_encoding.md R64, 00_scope.md R1). -/
inductive Mnemonic where
  | nop | halt
  | push | pop | dup | load | store | printI
  | add | sub | mul | div | mod
  | not | and | or
  | cmpE | cmpNe | cmpG | cmpGe | cmpL | cmpLe
  | jmp | jif
  deriving DecidableEq, Repr

/-- The mnemonics in the order of the table (30_encoding.md R64). -/
def Mnemonic.all : List Mnemonic :=
  [.nop, .halt, .push, .pop, .dup, .load, .store, .printI] ++
  [.add, .sub, .mul, .div, .mod, .not, .and, .or] ++
  [.cmpE, .cmpNe, .cmpG, .cmpGe, .cmpL, .cmpLe, .jmp, .jif]

/-- `OPC`, the map from the mnemonics to word values (00_scope.md R3, 30_encoding.md R64). -/
structure OpcodeMap where
  nop : Word
  halt : Word
  push : Word
  pop : Word
  dup : Word
  load : Word
  store : Word
  printI : Word
  add : Word
  sub : Word
  mul : Word
  div : Word
  mod : Word
  not : Word
  and : Word
  or : Word
  cmpE : Word
  cmpNe : Word
  cmpG : Word
  cmpGe : Word
  cmpL : Word
  cmpLe : Word
  jmp : Word
  jif : Word
  deriving DecidableEq, Repr

/-- `OPC(m)` (30_encoding.md R64). -/
def OpcodeMap.word (o : OpcodeMap) : Mnemonic → Word
  | .nop => o.nop
  | .halt => o.halt
  | .push => o.push
  | .pop => o.pop
  | .dup => o.dup
  | .load => o.load
  | .store => o.store
  | .printI => o.printI
  | .add => o.add
  | .sub => o.sub
  | .mul => o.mul
  | .div => o.div
  | .mod => o.mod
  | .not => o.not
  | .and => o.and
  | .or => o.or
  | .cmpE => o.cmpE
  | .cmpNe => o.cmpNe
  | .cmpG => o.cmpG
  | .cmpGe => o.cmpGe
  | .cmpL => o.cmpL
  | .cmpLe => o.cmpLe
  | .jmp => o.jmp
  | .jif => o.jif

/-- `OPC` is injective and its values are words of `xlen` bits (00_scope.md R3, 30_encoding.md R62). -/
abbrev OpcodeMap.WellFormed (xlen : Nat) (o : OpcodeMap) : Prop :=
  (Mnemonic.all.map o.word).Nodup ∧ ∀ m ∈ Mnemonic.all, InRange xlen (o.word m)

/-- `OVERFLOW_POLICY` (00_scope.md R3, 42_arithmetic.md R106): what ADD, SUB, MUL and the one overflowing
DIV do when the exact result is no word. -/
inductive OverflowPolicy where
  | wrap | fault
  deriving DecidableEq, Repr

/-- The texts a sink prints for the events that are not PRINT_I's (00_scope.md R3, 93_implementation_defined.md
U16): strings the spec leaves unspecified, which no step reads (assumption log 10). -/
structure SinkTexts where
  /-- `TXT_NOP`. -/
  nop : String
  /-- `TXT_HALT`. -/
  halt : String
  /-- `TXT_INVALID`. -/
  invalid : String
  deriving DecidableEq, Repr

/-- What is presented to the reset event and latched by it (70_reset_and_hazards.md R170). -/
structure ResetInputs where
  /-- `PROG`, the instruction stream: its length is `PROG_LEN` and slot `a` is element `a`. -/
  prog : List Word
  /-- `STACK_CAP`, the capacity of the operand stack. -/
  stackCap : Nat
  /-- `FRAME_CAP`, the capacity of the frame stack. -/
  frameCap : Nat
  deriving DecidableEq, Repr

/-- The parameters of the machine (00_scope.md R3): those fixed by the build, which nothing changes, and those
latched by the reset event, which are constant until the next one (70_reset_and_hazards.md R170). -/
structure Configuration where
  /-- `XLEN`, the width of a word in bits; fixed by the build. -/
  xlen : Nat
  /-- `STACK_CAP`, the capacity of the operand stack; latched at reset. -/
  stackCap : Nat
  /-- `FRAME_CAP`, the capacity of the frame stack; latched at reset. -/
  frameCap : Nat
  /-- `PROG`, the instruction stream: its length is `PROG_LEN` and slot `a` is element `a`; latched at reset. -/
  prog : List Word
  /-- `OPC`, the opcode values; fixed by the build. -/
  opc : OpcodeMap
  /-- `OVERFLOW_POLICY`; fixed by the build. -/
  policy : OverflowPolicy
  /-- `TXT_NOP`, `TXT_HALT` and `TXT_INVALID`; no reset changes them. -/
  texts : SinkTexts
  deriving DecidableEq, Repr

/-- The configuration is in the range the spec gives its parameters (00_scope.md R3, R4): a word has a sign
bit, `OPC` is an injective map to words, every slot of `PROG` is a word, and `PROG_LEN <= MAX`. -/
abbrev Configuration.WellFormed (c : Configuration) : Prop :=
  1 ≤ c.xlen ∧ c.opc.WellFormed c.xlen ∧ (∀ w ∈ c.prog, InRange c.xlen w) ∧
    (c.prog.length : Int) ≤ maxWord c.xlen

/-- The default of `XLEN` (00_scope.md R3, 92_eei_decisions.md D2). -/
def Config.defaultXlen : Nat := 64

end Sys2Proof
end

