-- ==== Sys2Proof/Syntax.lean ====
section
/-! DEFINITION. The instructions: one constructor for each row of spec/opcode_table.json (30_encoding.md R64).

Only PUSH, LOAD and STORE have an operand in the instruction, their immediate (30_encoding.md R60, R63); every
other operand comes from the operand stack. An invalid opcode has no row and is no instruction (R65). -/

namespace Sys2Proof

/-- One instruction (30_encoding.md R64). -/
inductive Instr where
  /-- NOP, 40_general.md R80. -/
  | nop
  /-- HALT, 40_general.md R81. -/
  | halt
  /-- PUSH with its literal, 41_data.md R90. -/
  | push (imm : Word)
  /-- POP, 41_data.md R91. -/
  | pop
  /-- DUP, 41_data.md R92. -/
  | dup
  /-- LOAD with its variable id, 41_data.md R93. -/
  | load (id : Word)
  /-- STORE with its variable id, 41_data.md R94. -/
  | store (id : Word)
  /-- PRINT_I, 41_data.md R95. -/
  | printI
  /-- ADD, 42_arithmetic.md R101. -/
  | add
  /-- SUB, 42_arithmetic.md R102. -/
  | sub
  /-- MUL, 42_arithmetic.md R103. -/
  | mul
  /-- DIV, 42_arithmetic.md R104. -/
  | div
  /-- MOD, 42_arithmetic.md R105. -/
  | mod
  /-- NOT, 43_logic.md R113. -/
  | not
  /-- AND, 43_logic.md R114. -/
  | and
  /-- OR, 43_logic.md R115. -/
  | or
  /-- CMP_E, 44_comparison.md R121. -/
  | cmpE
  /-- CMP_NE, 44_comparison.md R122. -/
  | cmpNe
  /-- CMP_G, 44_comparison.md R123. -/
  | cmpG
  /-- CMP_GE, 44_comparison.md R124. -/
  | cmpGe
  /-- CMP_L, 44_comparison.md R125. -/
  | cmpL
  /-- CMP_LE, 44_comparison.md R126. -/
  | cmpLe
  /-- JMP, 45_control_flow.md R130. -/
  | jmp
  /-- JIF, 45_control_flow.md R131. -/
  | jif
  deriving DecidableEq, Repr

/-- The row of the opcode table an instruction belongs to. -/
def Instr.mnemonic : Instr → Mnemonic
  | .nop => .nop
  | .halt => .halt
  | .push _ => .push
  | .pop => .pop
  | .dup => .dup
  | .load _ => .load
  | .store _ => .store
  | .printI => .printI
  | .add => .add
  | .sub => .sub
  | .mul => .mul
  | .div => .div
  | .mod => .mod
  | .not => .not
  | .and => .and
  | .or => .or
  | .cmpE => .cmpE
  | .cmpNe => .cmpNe
  | .cmpG => .cmpG
  | .cmpGe => .cmpGe
  | .cmpL => .cmpL
  | .cmpLe => .cmpLe
  | .jmp => .jmp
  | .jif => .jif

/-- The immediate of an instruction, if its format has one (30_encoding.md R60). -/
def Instr.immediate : Instr → Option Word
  | .push v => some v
  | .load v => some v
  | .store v => some v
  | .nop | .halt | .pop | .dup | .printI => none
  | .add | .sub | .mul | .div | .mod => none
  | .not | .and | .or => none
  | .cmpE | .cmpNe | .cmpG | .cmpGe | .cmpL | .cmpLe => none
  | .jmp | .jif => none

end Sys2Proof
end

