-- ==== Sys2Proof/WellFormed.lean ====
section
/-! DEFINITION. Well-formed instructions: those that have words.

The one condition is that an immediate is a word of XLEN bits (30_encoding.md R60, R63); every word is a legal
literal (41_data.md R90) and a legal variable id (10_state.md R21). The range of the parameters themselves is
`Configuration.WellFormed`, in Config. -/

namespace Sys2Proof

/-- The instruction's immediate, if it has one, is a word of `xlen` bits (30_encoding.md R63). -/
def Instr.wellFormed (xlen : Nat) (i : Instr) : Bool :=
  match i.immediate with
  | none => true
  | some v => decide (InRange xlen v)

end Sys2Proof
end

