-- ==== Sys2Proof/Decode.lean ====
section
/-! DEFINITION. The decoder (spec/30_encoding.md R60 to R66), the encoder after it, and the layout of the words
of spec/opcode_table.json.

The unit of the instruction stream is one whole word (20_memory.md R40, R45), so the decoder reads a list of
words. It is total: what it does not accept it rejects by name. -/

namespace Sys2Proof

/-- The default of `OPC`, the numbers 0 to 23 in the order of the table (30_encoding.md R64, 92_eei_decisions.md
D1, assumption log 12). -/
def OpcodeMap.standard : OpcodeMap :=
  { nop := 0, halt := 1, push := 2, pop := 3, dup := 4, load := 5, store := 6, printI := 7,
    add := 8, sub := 9, mul := 10, div := 11, mod := 12, not := 13, and := 14, or := 15,
    cmpE := 16, cmpNe := 17, cmpG := 18, cmpGe := 19, cmpL := 20, cmpLe := 21, jmp := 22, jif := 23 }

/-- The two instruction formats (30_encoding.md R60). -/
inductive Format where
  /-- `OP`: the opcode slot alone. -/
  | op
  /-- `OP_IMM`: the opcode slot and one immediate slot. -/
  | opImm
  deriving DecidableEq, Repr

/-- The format of each mnemonic (30_encoding.md R64, column "format"). -/
def Mnemonic.format : Mnemonic → Format
  | .push | .load | .store => .opImm
  | .nop | .halt | .pop | .dup | .printI => .op
  | .add | .sub | .mul | .div | .mod => .op
  | .not | .and | .or => .op
  | .cmpE | .cmpNe | .cmpG | .cmpGe | .cmpL | .cmpLe => .op
  | .jmp | .jif => .op

/-- The number of slots of a format (30_encoding.md R60). -/
def Format.slots : Format → Nat
  | .op => 1
  | .opImm => 2

/-- The length of an instruction in slots (30_encoding.md R66). -/
def Instr.slots (i : Instr) : Nat := i.mnemonic.format.slots

/-- Recognition of the opcode: the whole fetched word is compared with each of the 24 values of `OPC`
(30_encoding.md R62); no match is an invalid opcode (R65). -/
def recognise (opc : OpcodeMap) (w : Word) : Option Mnemonic :=
  Mnemonic.all.find? (fun m => opc.word m == w)

/-- The instruction of a recognised opcode and of the word in its immediate slot, which only the three
mnemonics of format `OP_IMM` use (30_encoding.md R63). -/
def assemble (m : Mnemonic) (imm : Word) : Instr :=
  match m with
  | .nop => .nop
  | .halt => .halt
  | .push => .push imm
  | .pop => .pop
  | .dup => .dup
  | .load => .load imm
  | .store => .store imm
  | .printI => .printI
  | .add => .add
  | .sub => .sub
  | .mul => .mul
  | .div => .div
  | .mod => .mod
  | .not => .not
  | .and => .and
  | .or => .or
  | .cmpE => .cmpE
  | .cmpNe => .cmpNe
  | .cmpG => .cmpG
  | .cmpGe => .cmpGe
  | .cmpL => .cmpL
  | .cmpLe => .cmpLe
  | .jmp => .jmp
  | .jif => .jif

/-- Why the decoder gives no instruction. -/
inductive DecodeReject where
  /-- There is no opcode slot: the fetch is outside the stream (30_encoding.md R61). -/
  | noOpcodeSlot
  /-- The word is none of the 24 opcodes (30_encoding.md R65). -/
  | invalidOpcode (w : Word)
  /-- The opcode's immediate slot does not exist (30_encoding.md R63). -/
  | noImmediateSlot (m : Mnemonic)
  deriving DecidableEq, Repr

/-- Decodes the first instruction of a list of words and gives the words after it (30_encoding.md R60 to R66). -/
def decode (opc : OpcodeMap) : List Word → Except DecodeReject (Instr × List Word)
  | [] => .error .noOpcodeSlot
  | w :: rest =>
    match recognise opc w with
    | none => .error (.invalidOpcode w)
    | some m =>
      match m.format with
      | .op => .ok (assemble m 0, rest)
      | .opImm =>
        match rest with
        | [] => .error (.noImmediateSlot m)
        | imm :: rest' => .ok (assemble m imm, rest')

/-- The words of an instruction: its opcode word, and its immediate if it has one (30_encoding.md R60, R64). -/
def encode (opc : OpcodeMap) (i : Instr) : List Word :=
  match i.immediate with
  | none => [opc.word i.mnemonic]
  | some v => [opc.word i.mnemonic, v]

/-- The word whose bits are the low `xlen` bits of `n`, bit `xlen - 1` the sign (00_scope.md R4). -/
def wordOfBits (xlen n : Nat) : Word :=
  let r := n % 2 ^ xlen
  if r < 2 ^ (xlen - 1) then (r : Int) else (r : Int) - ((2 ^ xlen : Nat) : Int)

/-- The bits of a word as a natural number (00_scope.md R4). -/
def bitsOfWord (xlen : Nat) (v : Word) : Nat := (v % ((2 ^ xlen : Nat) : Int)).toNat

/-- The two slots of an instruction whose bits are `w`, numbered as spec/opcode_table.json numbers them: bit 0
is the least significant bit of the opcode word, and the immediate word's bits count on from bit `xlen`. Bits at
or above `nbits` are 0 (assumption log 22). -/
def slotsOfBits (xlen nbits w : Nat) : List Word :=
  let b := w % 2 ^ nbits
  [wordOfBits xlen b, wordOfBits xlen (b / 2 ^ xlen)]

/-- The bits of a sequence of slots as one number, the first slot lowest, numbered as spec/opcode_table.json
numbers them (assumption log 22). -/
def bitsOfSlots (xlen : Nat) : List Word → Nat
  | [] => 0
  | w :: rest => bitsOfWord xlen w + 2 ^ xlen * bitsOfSlots xlen rest

/-- The instruction the decoder reads from a word of spec/opcode_table.json, whose rows are those of the default
`XLEN` and `OPC`. -/
def decodeTableWord (nbits w : Nat) : Option Instr :=
  match decode OpcodeMap.standard (slotsOfBits Config.defaultXlen nbits w) with
  | .ok (i, _) => some i
  | .error _ => none

end Sys2Proof
end

