-- ==== Sys2Proof/Machine/State.lean ====
section
/-! DEFINITION. The state of the machine (spec/10_state.md R10), why a step can stop, and the state after reset
(10_state.md R28, 70_reset_and_hazards.md R170). Plain data throughout. -/

namespace Sys2Proof

/-- The default configuration (00_scope.md R3). The spec gives `PROG` and the three texts no default: the program
is empty (assumption log 2), and so are the texts (assumption log 10). -/
def Configuration.specDefault : Configuration :=
  { xlen := Config.defaultXlen, stackCap := 4096, frameCap := 256, prog := [],
    opc := OpcodeMap.standard, policy := .wrap,
    texts := { nop := "", halt := "", invalid := "" } }

end Sys2Proof

namespace Sys2Proof.Machine

/-- The run state `rs` (10_state.md R23). -/
inductive RunState where
  | ready | running | halted | faulted
  deriving DecidableEq, Repr

/-- The fault kind `fk` (10_state.md R24, 60_exceptions.md R140). -/
inductive FaultKind where
  | none | stackUnderflow | stackOverflow | arithmeticFault | unknownComparisonOperator | fetchFault
  deriving DecidableEq, Repr

/-- The variable store of one frame (10_state.md R21): the cells that hold a value other than 0, by rising
variable id. A cell that is not listed reads 0 (assumption log 8). -/
abbrev Memory := List (Word × Word)

/-- The canonical form of a variable store: ids strictly rising, no listed cell equal to 0, which is what an
unlisted cell reads (assumption log 8). -/
abbrev Memory.wf (m : Memory) : Prop :=
  m.Pairwise (fun p q => p.1 < q.1) ∧ ∀ p ∈ m, p.2 ≠ 0

/-- A call frame (10_state.md R20). -/
structure Frame where
  /-- `returnAddress`: fixed when the frame is built, read by no instruction. -/
  ra : Word
  /-- The frame's own variable store. -/
  vars : Memory
  deriving DecidableEq, Repr

/-- The one frame the machine ever builds: return address 0, every variable 0 (10_state.md R20,
70_reset_and_hazards.md R171). -/
def Frame.initial : Frame := { ra := 0, vars := [] }

/-- The kind of a trace event (10_state.md R26). -/
inductive TraceKind where
  | nop | halt | print | invalid
  deriving DecidableEq, Repr

/-- One event on the trace output (10_state.md R26). -/
structure TraceEvent where
  kind : TraceKind
  data : Word
  deriving DecidableEq, Repr

/-- Everything the spec gives the machine (10_state.md R10), with the configuration it runs under
(70_reset_and_hazards.md R170; assumption log 2) and the trace it has put out (10_state.md R26; assumption log
9). -/
structure State where
  /-- The parameters; no step changes them. -/
  cfg : Configuration
  /-- The instruction pointer (10_state.md R12). -/
  ip : Word
  /-- The operand stack OS, top first; its length is `osp` (10_state.md R13; assumption log 7). -/
  os : List Word
  /-- The frame stack FS, top first; its length is `fsp` (10_state.md R18; assumption log 7). -/
  fs : List Frame
  /-- The run state (10_state.md R23). -/
  rs : RunState
  /-- The fault kind (10_state.md R24). -/
  fk : FaultKind
  /-- The fault sub-cause (10_state.md R24). -/
  fsel : BitVec 1
  /-- The index of the opcode slot of the instruction that faulted (10_state.md R24). -/
  fip : Word
  /-- The events put out so far, oldest first (10_state.md R26). -/
  trace : List TraceEvent
  deriving DecidableEq, Repr

/-- Why a step has no next state. A fault OF THE MACHINE is not among them: it is a next state whose run state
is Faulted (60_exceptions.md R147; assumption log 6). -/
inductive Fault where
  /-- Raised by `step` in the Halted state, from which no step exists (10_state.md R23, 70_reset_and_hazards.md
  R174). Safe: the hardware changes nothing there until reset (assumption log 5). -/
  | noStepFromHalted
  /-- Raised by `step` in the Faulted state, from which no step exists (10_state.md R23, 70_reset_and_hazards.md
  R174). Safe, as above. -/
  | noStepFromFaulted
  deriving DecidableEq, Repr

/-- What the model gives no meaning. -/
inductive Refusal where
  /-- Raised by `exec` for an instruction without a meaning: no arm raises it. Safe. -/
  | notModelled (mnemonic : String)
  /-- Raised by `resetEvent` for a configuration outside the range of the parameters (00_scope.md R3,
  93_implementation_defined.md U20). Safe: no machine with such parameters is described (assumption log 17). -/
  | configurationOutOfRange
  deriving DecidableEq, Repr

/-- The state after a reset of a machine whose configuration is then `c` (10_state.md R28,
70_reset_and_hazards.md R170). -/
def State.resetWith (c : Configuration) : State :=
  { cfg := c, ip := 0, os := [], fs := [], rs := .ready, fk := .none, fsel := 0, fip := 0, trace := [] }

/-- The machine right after a reset with the default configuration (10_state.md R28, 70_reset_and_hazards.md
R170). -/
def State.reset : State := State.resetWith Configuration.specDefault

end Sys2Proof.Machine
end

