-- ==== Sys2Proof/Machine/Ops.lean ====
section
/-! DEFINITION. The named operations over the state: field updates, fault entry, the bounded-stack unit, the
operand stack, the frame stack, the variable store, the trace, the reset event and the start event
(spec/10_state.md, 60_exceptions.md R147, 70_reset_and_hazards.md R170, R171). -/

namespace Sys2Proof.Machine

/-! ## Field updates -/

/-- `ip <- v` (10_state.md R12). -/
def State.setIp (s : State) (v : Word) : State := { s with ip := v }

/-- The advance of `ip` by the `n` slots that the step's fetches have read (10_state.md R12, 45_control_flow.md
R134). -/
def State.advance (s : State) (n : Nat) : State := { s with ip := s.ip + n }

/-- The operand stack is replaced. -/
def State.setOs (s : State) (l : List Word) : State := { s with os := l }

/-- The frame stack is replaced. -/
def State.setFs (s : State) (l : List Frame) : State := { s with fs := l }

/-- `rs <- r` (10_state.md R23). -/
def State.setRs (s : State) (r : RunState) : State := { s with rs := r }

/-- `Emit(kind, v)`: one event is appended to the trace; it cannot fail (10_state.md R26). -/
def State.emit (s : State) (k : TraceKind) (v : Word) : State :=
  { s with trace := s.trace ++ [{ kind := k, data := v }] }

/-! ## Faults -/

/-- Which stack a stack fault was raised on (10_state.md R24). -/
inductive StackSelect where
  | operand | frame
  deriving DecidableEq, Repr

/-- The two sub-causes of an ArithmeticFault (10_state.md R24, 60_exceptions.md R143). -/
inductive ArithmeticCause where
  | zeroDivisor | overflow
  deriving DecidableEq, Repr

/-- What is raised: a fault kind with its sub-cause (60_exceptions.md R140). -/
inductive Cause where
  | stackUnderflow (on : StackSelect)
  | stackOverflow (on : StackSelect)
  | arithmeticFault (sub : ArithmeticCause)
  | unknownComparisonOperator
  | fetchFault
  deriving DecidableEq, Repr

/-- The fault kind recorded for a cause (60_exceptions.md R140). -/
def Cause.kind : Cause → FaultKind
  | .stackUnderflow _ => .stackUnderflow
  | .stackOverflow _ => .stackOverflow
  | .arithmeticFault _ => .arithmeticFault
  | .unknownComparisonOperator => .unknownComparisonOperator
  | .fetchFault => .fetchFault

/-- The sub-cause bit recorded for a cause (10_state.md R24): 1 for the frame stack and for `overflow`. -/
def Cause.sel : Cause → BitVec 1
  | .stackUnderflow .operand => 0
  | .stackUnderflow .frame => 1
  | .stackOverflow .operand => 0
  | .stackOverflow .frame => 1
  | .arithmeticFault .zeroDivisor => 0
  | .arithmeticFault .overflow => 1
  | .unknownComparisonOperator => 0
  | .fetchFault => 0

/-- Fault entry, `raise K(info)` (60_exceptions.md R147): the fault record is written with the index `cur` of the
faulting instruction's opcode slot, the run state becomes Faulted, and nothing else changes. There is no return
from a fault beside it: Faulted is terminal (60_exceptions.md R151). -/
def raiseFault (c : Cause) (cur : Word) (s : State) : State :=
  { s with fk := c.kind, fsel := c.sel, fip := cur, rs := .faulted }

/-- The result of an operation that can raise: a value and the state after it, or the cause raised and the state
at the moment of the failure, which is not rolled back (60_exceptions.md R148). -/
inductive Res (α : Type) where
  | ok (a : α) (s : State)
  | raised (c : Cause) (s : State)

/-- One operation after another: a raise ends the sequence at once (00_scope.md section 4). -/
def Res.andThen {α β : Type} (r : Res α) (k : α → State → Res β) : Res β :=
  match r with
  | .ok a s => k a s
  | .raised c s => .raised c s

/-- The end of an instruction whose step began at `cur`: its state, or fault entry in the state at the failure
(30_encoding.md R70, 60_exceptions.md R147). -/
def conclude (cur : Word) (r : Res Unit) : Host.Outcome State Fault Refusal :=
  match r with
  | .ok _ s => .next s
  | .raised c s => .next (raiseFault c cur s)

/-! ## The bounded-stack unit, used for both stacks (10_state.md R14 to R19, R29) -/

/-- Push: appends a new top if the size is below the capacity (10_state.md R14). -/
def BoundedStack.push {α : Type} (cap : Nat) (v : α) (st : List α) : Option (List α) :=
  if cap ≤ st.length then none else some (v :: st)

/-- Pop: removes and returns the top if there is one (10_state.md R15). -/
def BoundedStack.pop {α : Type} (st : List α) : Option (α × List α) :=
  match st with
  | [] => none
  | v :: rest => some (v, rest)

/-- Peek: the top if there is one (10_state.md R16). -/
def BoundedStack.peek {α : Type} (st : List α) : Option α :=
  match st with
  | [] => none
  | v :: _ => some v

/-- The query `count` (10_state.md R17). -/
def BoundedStack.count {α : Type} (st : List α) : Nat := st.length

/-- The query `isEmpty` (10_state.md R17). -/
def BoundedStack.isEmpty {α : Type} (st : List α) : Bool := st.length == 0

/-- The query `isFull` (10_state.md R17). -/
def BoundedStack.isFull {α : Type} (cap : Nat) (st : List α) : Bool := st.length == cap

/-- The element `OS[i]`, counted from the bottom, which was pushed first (10_state.md R13); none at or above the
count. -/
def BoundedStack.element {α : Type} (st : List α) (i : Nat) : Option α := st.reverse[i]?

/-! ## The operand stack -/

/-- `OsPush(v)` (10_state.md R14). -/
def osPush (v : Word) (s : State) : Res Unit :=
  match BoundedStack.push s.cfg.stackCap v s.os with
  | none => .raised (.stackOverflow .operand) s
  | some l => .ok () (s.setOs l)

/-- `OsPop()` (10_state.md R15). -/
def osPop (s : State) : Res Word :=
  match BoundedStack.pop s.os with
  | none => .raised (.stackUnderflow .operand) s
  | some (v, l) => .ok v (s.setOs l)

/-- `OsPeek()` (10_state.md R16). -/
def osPeek (s : State) : Res Word :=
  match BoundedStack.peek s.os with
  | none => .raised (.stackUnderflow .operand) s
  | some v => .ok v s

/-! ## The frame stack -/

/-- `FsPush(f)` (10_state.md R19). -/
def fsPush (f : Frame) (s : State) : Res Unit :=
  match BoundedStack.push s.cfg.frameCap f s.fs with
  | none => .raised (.stackOverflow .frame) s
  | some l => .ok () (s.setFs l)

/-- `FsPop()` (10_state.md R19); no instruction executes it. -/
def fsPop (s : State) : Res Frame :=
  match BoundedStack.pop s.fs with
  | none => .raised (.stackUnderflow .frame) s
  | some (f, l) => .ok f (s.setFs l)

/-- `FsPeek()` (10_state.md R19). -/
def fsPeek (s : State) : Res Frame :=
  match BoundedStack.peek s.fs with
  | none => .raised (.stackUnderflow .frame) s
  | some f => .ok f s

/-- The top frame, which `FsPeek` gave, is written back (10_state.md R22: every other frame is unchanged). -/
def State.setTopFrame (s : State) (f : Frame) : State := s.setFs (f :: s.fs.tail)

/-! ## The variable store -/

/-- The value of the cell `id`: 0 if it is not listed (10_state.md R21, 20_memory.md R43). -/
def Memory.read (m : Memory) (id : Word) : Word :=
  match m with
  | [] => 0
  | (k, x) :: rest => if k = id then x else Memory.read rest id

/-- The store with `v` in the cell `id`, in canonical form (10_state.md R22; assumption log 8). -/
def Memory.write (m : Memory) (id v : Word) : Memory :=
  match m with
  | [] => if v = 0 then [] else [(id, v)]
  | (k, x) :: rest =>
    if id < k then (if v = 0 then (k, x) :: rest else (id, v) :: (k, x) :: rest)
    else if id = k then (if v = 0 then rest else (id, v) :: rest)
    else (k, x) :: Memory.write rest id v

/-- `VarRead(f, id)`, which never fails (10_state.md R21). -/
def varRead (f : Frame) (id : Word) : Word := Memory.read f.vars id

/-- `VarWrite(f, id, v)`, which never fails (10_state.md R22). -/
def varWrite (f : Frame) (id v : Word) : Frame := { f with vars := Memory.write f.vars id v }

/-! ## Reset and start -/

/-- The configuration with the reset inputs `r` latched and what the build fixes kept (70_reset_and_hazards.md
R170). -/
def Configuration.latch (c : Configuration) (r : ResetInputs) : Configuration :=
  { c with prog := r.prog, stackCap := r.stackCap, frameCap := r.frameCap }

/-- The reset event that presents the inputs `r` (70_reset_and_hazards.md R170): it acts in every state, latches
`r`, and of that state only what the build fixes survives. A configuration outside the range of the parameters is
refused (93_implementation_defined.md U20; assumption log 17). -/
def resetEvent (r : ResetInputs) (s : State) : Host.Outcome State Fault Refusal :=
  let c := Configuration.latch s.cfg r
  if c.WellFormed then .next (State.resetWith c) else .refused .configurationOutOfRange

/-- `Start()` of a Ready machine (70_reset_and_hazards.md R171): `ip` is 0, the initial frame is pushed, the
machine is Running; with no room for a frame it is Faulted instead. -/
def startReady (s : State) : State :=
  match fsPush Frame.initial (s.setIp 0) with
  | .ok _ s' => s'.setRs .running
  | .raised c s' => raiseFault c 0 s'

/-- The start event: it acts only in Ready and changes nothing in any other state (70_reset_and_hazards.md R171,
R173). -/
def startEvent (s : State) : State :=
  match s.rs with
  | .ready => startReady s
  | .running => s
  | .halted => s
  | .faulted => s

end Sys2Proof.Machine
end

