-- ==== Sys2Proof/Machine/Operands.lean ====
section
/-! DEFINITION. The integer arithmetic of the ALU (spec/42_arithmetic.md section 3) and the two operand forms
of its instructions (42_arithmetic.md R100, 43_logic.md R113).

Every result is computed exactly, as an integer, and narrowed to a word at the end. -/

namespace Sys2Proof.Machine

/-- `wrap(z)`: the word congruent to `z` modulo `2^XLEN` (00_scope.md R4). -/
def wrap (xlen : Nat) (z : Int) : Word := Int.bmod z (2 ^ xlen)

/-- `tdiv(a, b) = sign(a) * sign(b) * floor(|a| / |b|)` (42_arithmetic.md R108). -/
def tdiv (a b : Int) : Int := a.sign * b.sign * ((a.natAbs / b.natAbs : Nat) : Int)

/-- `tmod(a, b) = a - tdiv(a, b) * b` (42_arithmetic.md R108; assumption log 18). -/
def tmod (a b : Int) : Int := a - tdiv a b * b

/-- The result `z` of ADD, SUB or MUL as a word: outside `MIN..MAX` it wraps or, under the policy `fault`, raises
(42_arithmetic.md R101, R106; assumption log 11). -/
def narrow (c : Configuration) (z : Int) : Except ArithmeticCause Word :=
  if (z < minWord c.xlen ∨ maxWord c.xlen < z) ∧ c.policy = .fault then .error .overflow
  else .ok (wrap c.xlen z)

/-- The operation of ADD (42_arithmetic.md R101). -/
def aluAdd (c : Configuration) (a b : Word) : Except ArithmeticCause Word := narrow c (a + b)

/-- The operation of SUB (42_arithmetic.md R102). -/
def aluSub (c : Configuration) (a b : Word) : Except ArithmeticCause Word := narrow c (a - b)

/-- The operation of MUL (42_arithmetic.md R103). -/
def aluMul (c : Configuration) (a b : Word) : Except ArithmeticCause Word := narrow c (a * b)

/-- The operation of DIV (42_arithmetic.md R104, R107, R109). -/
def aluDiv (c : Configuration) (a b : Word) : Except ArithmeticCause Word :=
  if b = 0 then .error .zeroDivisor
  else if maxWord c.xlen < tdiv a b ∧ c.policy = .fault then .error .overflow
  else .ok (wrap c.xlen (tdiv a b))

/-- The operation of MOD (42_arithmetic.md R105, R107, R109). -/
def aluMod (c : Configuration) (a b : Word) : Except ArithmeticCause Word :=
  if b = 0 then .error .zeroDivisor
  else if a = minWord c.xlen ∧ b = -1 ∧ c.policy = .fault then .error .overflow
  else .ok (tmod a b)

/-- An ALU result in the course of an instruction: it goes on with the word, or raises ArithmeticFault
(60_exceptions.md R143). -/
def liftAlu (r : Except ArithmeticCause Word) (s : State) : Res Word :=
  match r with
  | .ok v => .ok v s
  | .error e => .raised (.arithmeticFault e) s

/-- Pops the two operands of a binary instruction, `b` first and `a` second, and goes on with `a`, `b`
(42_arithmetic.md R100, 43_logic.md R114, 44_comparison.md R120). -/
def popTwo (s : State) (k : Word → Word → State → Res Unit) : Res Unit :=
  (osPop s).andThen fun b s1 => (osPop s1).andThen fun a s2 => k a b s2

/-- `BinaryArith(op)` (42_arithmetic.md R100). -/
def binaryArith (op : Configuration → Word → Word → Except ArithmeticCause Word) (s : State) : Res Unit :=
  popTwo s fun a b s2 => (liftAlu (op s2.cfg a b) s2).andThen fun r s3 => osPush r s3

/-- The protocol of the binary logic instructions: pop `b`, pop `a`, push the outcome (43_logic.md R114, R115). -/
def binaryLogic (op : Word → Word → Word) (s : State) : Res Unit :=
  popTwo s fun a b s2 => osPush (op a b) s2

end Sys2Proof.Machine
end

