-- ==== Sys2Proof/Machine/Arithmetic.lean ====
section
/-! DEFINITION. ADD, SUB, MUL, DIV and MOD (spec/42_arithmetic.md). -/

namespace Sys2Proof.Machine

/-- ADD (42_arithmetic.md R101). -/
def execAdd (s : State) : Host.Outcome State Fault Refusal :=
  conclude s.ip (binaryArith aluAdd (s.advance 1))

/-- SUB (42_arithmetic.md R102). -/
def execSub (s : State) : Host.Outcome State Fault Refusal :=
  conclude s.ip (binaryArith aluSub (s.advance 1))

/-- MUL (42_arithmetic.md R103). -/
def execMul (s : State) : Host.Outcome State Fault Refusal :=
  conclude s.ip (binaryArith aluMul (s.advance 1))

/-- DIV (42_arithmetic.md R104). -/
def execDiv (s : State) : Host.Outcome State Fault Refusal :=
  conclude s.ip (binaryArith aluDiv (s.advance 1))

/-- MOD (42_arithmetic.md R105). -/
def execMod (s : State) : Host.Outcome State Fault Refusal :=
  conclude s.ip (binaryArith aluMod (s.advance 1))

end Sys2Proof.Machine
end

