-- ==== Sys2Proof/Machine/Flags.lean ====
section
/-! DEFINITION. Conditions. The machine has no flag and no condition code (spec/10_state.md R25): a condition is
a word on the operand stack, under the boolean convention of 00_scope.md R5, and the relation evaluator of the
comparison instructions produces it (44_comparison.md R120, R127). -/

namespace Sys2Proof.Machine

/-- `asBool(x) = (x != 0)` (00_scope.md R5). -/
def asBool (x : Word) : Bool := decide (x ≠ 0)

/-- `asInt(true) = 1`, `asInt(false) = 0` (00_scope.md R5). -/
def asInt (b : Bool) : Word := if b then 1 else 0

/-- The outcome of NOT (43_logic.md R113). -/
def logicNot (a : Word) : Word := asInt (decide (a = 0))

/-- The outcome of AND (43_logic.md R114). -/
def logicAnd (a b : Word) : Word := asInt (asBool a && asBool b)

/-- The outcome of OR (43_logic.md R115). -/
def logicOr (a b : Word) : Word := asInt (asBool a || asBool b)

/-- The six relations of the comparison family (44_comparison.md R127: E, NE, G, GE, L, LE). -/
inductive Relation where
  | e | ne | g | ge | l | le
  deriving DecidableEq, Repr

/-- The relation, with `a` on its left and `b` on its right, on signed integers (44_comparison.md R120 to
R126). -/
def Relation.holds (r : Relation) (a b : Word) : Bool :=
  match r with
  | .e => decide (a = b)
  | .ne => decide (a ≠ b)
  | .g => decide (b < a)
  | .ge => decide (b ≤ a)
  | .l => decide (a < b)
  | .le => decide (a ≤ b)

/-- The relation evaluator's second look at the opcode (44_comparison.md R127): a relation for the six opcodes
of the family and for no other. -/
def relationSelect : Mnemonic → Option Relation
  | .cmpE => some .e
  | .cmpNe => some .ne
  | .cmpG => some .g
  | .cmpGe => some .ge
  | .cmpL => some .l
  | .cmpLe => some .le
  | .nop | .halt | .push | .pop | .dup | .load | .store | .printI => none
  | .add | .sub | .mul | .div | .mod => none
  | .not | .and | .or => none
  | .jmp | .jif => none

/-- `Compare(rel)` (44_comparison.md R120), with the relation the evaluator selects from the opcode `m` after
both pops; no selection is an UnknownComparisonOperator, before anything is pushed (R127; assumption log 15). -/
def evalCompare (m : Mnemonic) (s : State) : Res Unit :=
  popTwo s fun a b s2 =>
    match relationSelect m with
    | none => .raised .unknownComparisonOperator s2
    | some rel => osPush (asInt (rel.holds a b)) s2

end Sys2Proof.Machine
end

