-- ==== Sys2Proof/Machine/Comparison.lean ====
section
/-! DEFINITION. CMP_E, CMP_NE, CMP_G, CMP_GE, CMP_L and CMP_LE (spec/44_comparison.md). Each hands its own opcode
to the relation evaluator (R127). -/

namespace Sys2Proof.Machine

/-- CMP_E (44_comparison.md R121). -/
def execCmpE (s : State) : Host.Outcome State Fault Refusal :=
  conclude s.ip (evalCompare .cmpE (s.advance 1))

/-- CMP_NE (44_comparison.md R122). -/
def execCmpNe (s : State) : Host.Outcome State Fault Refusal :=
  conclude s.ip (evalCompare .cmpNe (s.advance 1))

/-- CMP_G (44_comparison.md R123). -/
def execCmpG (s : State) : Host.Outcome State Fault Refusal :=
  conclude s.ip (evalCompare .cmpG (s.advance 1))

/-- CMP_GE (44_comparison.md R124). -/
def execCmpGe (s : State) : Host.Outcome State Fault Refusal :=
  conclude s.ip (evalCompare .cmpGe (s.advance 1))

/-- CMP_L (44_comparison.md R125). -/
def execCmpL (s : State) : Host.Outcome State Fault Refusal :=
  conclude s.ip (evalCompare .cmpL (s.advance 1))

/-- CMP_LE (44_comparison.md R126). -/
def execCmpLe (s : State) : Host.Outcome State Fault Refusal :=
  conclude s.ip (evalCompare .cmpLe (s.advance 1))

end Sys2Proof.Machine
end

