-- ==== Sys2Proof/Machine/ControlFlow.lean ====
section
/-! DEFINITION. JMP and JIF (spec/45_control_flow.md). A target is not checked at the jump: the next fetch checks
it (R132; assumption log 13). -/

namespace Sys2Proof.Machine

/-- JMP (45_control_flow.md R130). -/
def execJmp (s : State) : Host.Outcome State Fault Refusal :=
  conclude s.ip ((osPop (s.advance 1)).andThen fun t s1 => .ok () (s1.setIp t))

/-- JIF: the condition is popped first, and the target only when the condition is nonzero (45_control_flow.md
R131). -/
def execJif (s : State) : Host.Outcome State Fault Refusal :=
  conclude s.ip ((osPop (s.advance 1)).andThen fun c s1 =>
    if asBool c then (osPop s1).andThen fun t s2 => .ok () (s2.setIp t)
    else .ok () s1)

end Sys2Proof.Machine
end

