-- ==== Sys2Proof/Machine/Data.lean ====
section
/-! DEFINITION. PUSH, POP, DUP, LOAD, STORE and PRINT_I (spec/41_data.md).

The immediate of PUSH, LOAD and STORE has been fetched when the meaning begins, so `ip` advances by 2; a missing
immediate slot is a FetchFault of the step, before the meaning (60_exceptions.md R149). -/

namespace Sys2Proof.Machine

/-- PUSH (41_data.md R90). -/
def execPush (imm : Word) (s : State) : Host.Outcome State Fault Refusal :=
  conclude s.ip (osPush imm (s.advance 2))

/-- POP (41_data.md R91). -/
def execPop (s : State) : Host.Outcome State Fault Refusal :=
  conclude s.ip ((osPop (s.advance 1)).andThen fun _ s1 => .ok () s1)

/-- DUP (41_data.md R92). -/
def execDup (s : State) : Host.Outcome State Fault Refusal :=
  conclude s.ip ((osPeek (s.advance 1)).andThen fun v s1 => osPush v s1)

/-- LOAD (41_data.md R93; the order of the operations is assumption log 19). -/
def execLoad (id : Word) (s : State) : Host.Outcome State Fault Refusal :=
  conclude s.ip ((fsPeek (s.advance 2)).andThen fun f s1 => osPush (varRead f id) s1)

/-- STORE (41_data.md R94; the order of the operations is assumption log 19). -/
def execStore (id : Word) (s : State) : Host.Outcome State Fault Refusal :=
  conclude s.ip ((osPop (s.advance 2)).andThen fun v s1 =>
    (fsPeek s1).andThen fun f s2 => .ok () (s2.setTopFrame (varWrite f id v)))

/-- PRINT_I (41_data.md R95). -/
def execPrintI (s : State) : Host.Outcome State Fault Refusal :=
  conclude s.ip ((osPop (s.advance 1)).andThen fun v s1 => .ok () (s1.emit .print v))

end Sys2Proof.Machine
end

