-- ==== Sys2Proof/Machine/General.lean ====
section
/-! DEFINITION. NOP, HALT and the invalid opcode (spec/40_general.md).

A meaning takes the state in which its step began, so `ip` is `cur`, the index of its opcode slot; it first
advances `ip` past the slots its step has fetched (assumption log 16). -/

namespace Sys2Proof.Machine

/-- NOP (40_general.md R80). -/
def execNop (s : State) : Host.Outcome State Fault Refusal :=
  conclude s.ip (.ok () ((s.advance 1).emit .nop 0))

/-- HALT (40_general.md R81). -/
def execHalt (s : State) : Host.Outcome State Fault Refusal :=
  conclude s.ip (.ok () (((s.advance 1).emit .halt 0).setRs .halted))

/-- A fetched word `w` that is no opcode (40_general.md R82). It has no row in the table, so it is no arm of
`exec`; `step` calls it. -/
def execInvalid (w : Word) (s : State) : Host.Outcome State Fault Refusal :=
  conclude s.ip (.ok () ((s.advance 1).emit .invalid w))

end Sys2Proof.Machine
end

