-- ==== Sys2Proof/Machine/Logic.lean ====
section
/-! DEFINITION. NOT, AND and OR (spec/43_logic.md): logical, not bitwise. -/

namespace Sys2Proof.Machine

/-- NOT (43_logic.md R113). -/
def execNot (s : State) : Host.Outcome State Fault Refusal :=
  conclude s.ip ((osPop (s.advance 1)).andThen fun a s1 => osPush (logicNot a) s1)

/-- AND (43_logic.md R114). -/
def execAnd (s : State) : Host.Outcome State Fault Refusal :=
  conclude s.ip (binaryLogic logicAnd (s.advance 1))

/-- OR (43_logic.md R115). -/
def execOr (s : State) : Host.Outcome State Fault Refusal :=
  conclude s.ip (binaryLogic logicOr (s.advance 1))

end Sys2Proof.Machine
end

