-- ==== Sys2Proof/Machine/Dispatch.lean ====
section
/-! DEFINITION. The dispatch of an instruction to its meaning (spec/30_encoding.md R70). -/

namespace Sys2Proof.Machine

def exec (i : Instr) (s : State) : Host.Outcome State Fault Refusal :=
  match i with
  | .nop => Sys2Proof.Machine.execNop s
  | .halt => Sys2Proof.Machine.execHalt s
  | .push imm => Sys2Proof.Machine.execPush imm s
  | .pop => Sys2Proof.Machine.execPop s
  | .dup => Sys2Proof.Machine.execDup s
  | .load id => Sys2Proof.Machine.execLoad id s
  | .store id => Sys2Proof.Machine.execStore id s
  | .printI => Sys2Proof.Machine.execPrintI s
  | .add => Sys2Proof.Machine.execAdd s
  | .sub => Sys2Proof.Machine.execSub s
  | .mul => Sys2Proof.Machine.execMul s
  | .div => Sys2Proof.Machine.execDiv s
  | .mod => Sys2Proof.Machine.execMod s
  | .not => Sys2Proof.Machine.execNot s
  | .and => Sys2Proof.Machine.execAnd s
  | .or => Sys2Proof.Machine.execOr s
  | .cmpE => Sys2Proof.Machine.execCmpE s
  | .cmpNe => Sys2Proof.Machine.execCmpNe s
  | .cmpG => Sys2Proof.Machine.execCmpG s
  | .cmpGe => Sys2Proof.Machine.execCmpGe s
  | .cmpL => Sys2Proof.Machine.execCmpL s
  | .cmpLe => Sys2Proof.Machine.execCmpLe s
  | .jmp => Sys2Proof.Machine.execJmp s
  | .jif => Sys2Proof.Machine.execJif s

end Sys2Proof.Machine
end

