-- ==== Sys2Proof/Machine/Fetch.lean ====
section
/-! DEFINITION. The fetch of one instruction (spec/30_encoding.md R61, R63, R70) and the placing of an
instruction where the next fetch reads. -/

namespace Sys2Proof.Machine

/-- `MemRead(a, 1)`: slot `a` of the instruction stream, defined only for `0 <= a < PROG_LEN` (20_memory.md
R41). -/
def memRead (c : Configuration) (a : Word) : Option Word :=
  if 0 ≤ a then c.prog[a.toNat]? else none

/-- `Fetch()`: the checked read of the slot at `ip`, then `ip <- ip + 1`; outside the stream it raises
FetchFault and leaves `ip` alone (30_encoding.md R61; assumption log 13). -/
def fetch (s : State) : Res Word :=
  match memRead s.cfg s.ip with
  | none => .raised .fetchFault s
  | some w => .ok w (s.advance 1)

/-- What the fetches of one step give. -/
inductive Fetched where
  /-- An instruction, all its slots read. -/
  | instr (i : Instr)
  /-- A word that is no opcode (30_encoding.md R65). -/
  | invalid (w : Word)
  /-- A fetch raised, in this state. -/
  | raised (c : Cause) (s : State)

/-- The fetch of the opcode slot, the recognition of the opcode, and for the three opcodes of format `OP_IMM`
the fetch of the immediate slot (30_encoding.md R61, R62, R63, R70). -/
def fetchInstr (s : State) : Fetched :=
  match fetch s with
  | .raised c s1 => .raised c s1
  | .ok w s1 =>
    match recognise s.cfg.opc w with
    | none => .invalid w
    | some m =>
      match m.format with
      | .op => .instr (assemble m 0)
      | .opImm =>
        match fetch s1 with
        | .raised c s2 => .raised c s2
        | .ok imm _ => .instr (assemble m imm)

/-- The words `ws` put in the stream from slot `a` on. -/
def placeWords (a : Nat) (ws prog : List Word) : List Word :=
  prog.take a ++ ws ++ prog.drop (a + ws.length)

/-- The state with the words `ws` where its next fetch reads, and that fetch next: a Running machine whose `ip`
is in the stream or at its end gets them at `ip`; any other gets them at index 0 of its stream, as the start
event leaves it, Running at 0 with the initial frame (assumption log 3). -/
def placeAtFetch (s : State) (ws : List Word) : State :=
  if s.rs = .running ∧ 0 ≤ s.ip ∧ s.ip ≤ s.cfg.prog.length then
    { s with cfg := { s.cfg with prog := placeWords s.ip.toNat ws s.cfg.prog } }
  else if s.rs = .running then
    { s with cfg := { s.cfg with prog := placeWords 0 ws s.cfg.prog }, ip := 0 }
  else
    { s with cfg := { s.cfg with prog := placeWords 0 ws s.cfg.prog }, ip := 0, fs := [Frame.initial], rs := .running }

end Sys2Proof.Machine
end

