-- ==== Sys2Proof/Machine/Step.lean ====
section
/-! DEFINITION. One step of the machine (spec/30_encoding.md R70, 00_scope.md R6): the start event of a Ready
machine, one whole instruction of a Running one, and no step of a Halted or Faulted one (10_state.md R23,
70_reset_and_hazards.md R176). -/

namespace Sys2Proof.Machine

/-- `Step()` of a Running machine (30_encoding.md R70): the fetches, then the instruction's meaning; a word that
is no opcode has the meaning of 40_general.md R82, and a fetch that raises ends the step in fault entry. -/
def stepRunning (s : State) : Host.Outcome State Fault Refusal :=
  match fetchInstr s with
  | .instr i => exec i s
  | .invalid w => execInvalid w s
  | .raised c s1 => .next (raiseFault c s.ip s1)

/-- One step (30_encoding.md R70, 70_reset_and_hazards.md R171, R176; assumption logs 4 and 5). -/
def step (s : State) : Host.Outcome State Fault Refusal :=
  match s.rs with
  | .ready => .next (startEvent s)
  | .running => stepRunning s
  | .halted => .fault .noStepFromHalted
  | .faulted => .fault .noStepFromFaulted

/-- The state with the instruction of the bits `w`, numbered as spec/opcode_table.json numbers them, where the
next step fetches, and the machine Running there (assumption logs 3 and 22). -/
def State.withFetchWord (s : State) (nbits w : Nat) : State :=
  placeAtFetch s (slotsOfBits s.cfg.xlen nbits w)

end Sys2Proof.Machine
end

