-- ==== Sys2Proof/Machine/Observe.lean ====
section
/-! DEFINITION. What the outside sees of a state: the register encodings (spec/10_state.md R23, R24, R26), the
text of a trace event (10_state.md R26, 41_data.md R96) and the result of a run (60_exceptions.md R159). -/

namespace Sys2Proof.Machine

/-- The 2-bit encoding of `rs` (10_state.md R23). -/
def RunState.code : RunState → BitVec 2
  | .ready => 0
  | .running => 1
  | .halted => 2
  | .faulted => 3

/-- The 3-bit encoding of `fk` (10_state.md R24). -/
def FaultKind.code : FaultKind → BitVec 3
  | .none => 0
  | .stackUnderflow => 1
  | .stackOverflow => 2
  | .arithmeticFault => 3
  | .unknownComparisonOperator => 4
  | .fetchFault => 5

/-- The 2-bit encoding of a trace event's kind (10_state.md R26). -/
def TraceKind.code : TraceKind → BitVec 2
  | .nop => 0
  | .halt => 1
  | .print => 2
  | .invalid => 3

/-- The decimal digit of `d < 10` as a character. -/
def digitChar (d : Nat) : Char := Char.ofNat (48 + d)

/-- The digits of `n` in base ten, put before `acc`; `fuel` bounds their number. -/
def decDigits : Nat → Nat → List Char → List Char
  | 0, _, acc => acc
  | fuel + 1, n, acc =>
    if n / 10 = 0 then digitChar (n % 10) :: acc
    else decDigits fuel (n / 10) (digitChar (n % 10) :: acc)

/-- The digits of a natural number, most significant first, no leading zero (41_data.md R96). -/
def decNat (n : Nat) : List Char := decDigits (n + 1) n []

/-- `dec(v)` as a list of characters (41_data.md R96; assumption log 10). -/
def decChars (v : Word) : List Char :=
  if v < 0 then '-' :: decNat v.natAbs else decNat v.natAbs

/-- `dec(v)` (41_data.md R96). -/
def dec (v : Word) : String := String.ofList (decChars v)

/-- The text a sink with the texts `t` prints for an event (10_state.md R26). -/
def TraceEvent.text (t : SinkTexts) (e : TraceEvent) : String :=
  match e.kind with
  | .nop => t.nop
  | .halt => t.halt
  | .print => dec e.data
  | .invalid => t.invalid

/-- The texts put out so far, oldest first (10_state.md R26). -/
def State.output (s : State) : List String := s.trace.map (TraceEvent.text s.cfg.texts)

/-- The result of a run (60_exceptions.md R159): success, or the fault's kind, sub-cause and instruction. -/
inductive RunResult where
  | success
  | failure (kind : FaultKind) (sel : BitVec 1) (at_ : Word)
  deriving DecidableEq, Repr

/-- What the host reads: nothing before the run has ended (60_exceptions.md R159). -/
def State.result (s : State) : Option RunResult :=
  match s.rs with
  | .ready => none
  | .running => none
  | .halted => some .success
  | .faulted => some (.failure s.fk s.fsel s.fip)

end Sys2Proof.Machine
end

