-- ==== Sys2Proof/Machine/Run.lean ====
section
/-! DEFINITION. A run under fuel, outside the step relation (spec/30_encoding.md R70: the machine repeats the step
while it is Running; 60_exceptions.md R154, 70_reset_and_hazards.md R176: a bound is the wrapper's). -/

namespace Sys2Proof.Machine

/-- At most `n` steps from `s`: it stops where no step exists. -/
def runFor : Nat → State → State
  | 0, s => s
  | n + 1, s =>
    match step s with
    | .next t => runFor n t
    | .fault _ => s
    | .refused _ => s

/-- The result of `run()` within `n` steps, if it has ended by then (60_exceptions.md R159). -/
def runResult (n : Nat) (s : State) : Option RunResult := (runFor n s).result

end Sys2Proof.Machine
end

