-- ==== Sys2Proof/Safety.lean ====
section
/-! DEFINITION. What a state of a real machine satisfies, in the terms the statements use: the invariant of the
machine and its parts, sequences of stack operations, the operands an instruction may pop, and the two changes of
a state that no instruction can notice. -/

namespace Sys2Proof.Machine

/-- Every value the machine holds is a word of XLEN bits (spec/00_scope.md R4). -/
structure State.AllWords (s : State) : Prop where
  ip : InRange s.cfg.xlen s.ip
  os : ∀ v ∈ s.os, InRange s.cfg.xlen v
  ra : ∀ f ∈ s.fs, InRange s.cfg.xlen f.ra
  vars : ∀ f ∈ s.fs, ∀ p ∈ f.vars, InRange s.cfg.xlen p.1 ∧ InRange s.cfg.xlen p.2
  fip : InRange s.cfg.xlen s.fip
  trace : ∀ e ∈ s.trace, InRange s.cfg.xlen e.data

/-- Neither stack exceeds its capacity (spec/10_state.md R13, R18). -/
structure State.WithinCapacity (s : State) : Prop where
  os : s.os.length ≤ s.cfg.stackCap
  fs : s.fs.length ≤ s.cfg.frameCap

/-- What the fault record can say (spec/10_state.md R24, 60_exceptions.md R140): nothing before a fault; never a
frame-stack underflow or an unknown comparison operator, which are unreachable; a frame-stack overflow only with
`FRAME_CAP = 0`; an arithmetic overflow only under `OVERFLOW_POLICY = fault`. -/
def State.FaultRecordLegal (s : State) : Prop :=
  match s.fk with
  | .none => s.fsel = 0 ∧ s.fip = 0
  | .stackUnderflow => s.fsel = 0
  | .stackOverflow => s.fsel = 1 → s.cfg.frameCap = 0
  | .arithmeticFault => s.fsel = 1 → s.cfg.policy = .fault
  | .unknownComparisonOperator => False
  | .fetchFault => s.fsel = 0

/-- What the run state says of the frame stack and the fault record (spec/10_state.md R19, R23, R28;
60_exceptions.md R147): in a run there is exactly the initial activation, with return address 0; a fault is
recorded exactly in Faulted. -/
def State.RunStateLegal (s : State) : Prop :=
  match s.rs with
  | .ready => s.ip = 0 ∧ s.os = [] ∧ s.fs = [] ∧ s.fk = .none ∧ s.trace = []
  | .running => (∃ f, s.fs = [f] ∧ f.ra = 0) ∧ s.fk = .none
  | .halted => (∃ f, s.fs = [f] ∧ f.ra = 0) ∧ s.fk = .none
  | .faulted => (s.fs = [] ∨ ∃ f, s.fs = [f] ∧ f.ra = 0) ∧ s.fk ≠ .none

/-- The invariant of the machine. -/
structure State.Inv (s : State) : Prop where
  cfg : s.cfg.WellFormed
  words : s.AllWords
  capacity : s.WithinCapacity
  canonical : ∀ f ∈ s.fs, Memory.wf f.vars
  faultRecord : s.FaultRecordLegal
  runState : s.RunStateLegal

/-- The pushes of `vs` one after another, the first element of the list first (spec/10_state.md R29). -/
def pushAll {α : Type} (push : α → State → Res Unit) : List α → State → Res Unit
  | [], s => .ok () s
  | v :: vs, s => (push v s).andThen fun _ s1 => pushAll push vs s1

/-- `n` pops one after another, with the popped values, the first popped first (spec/10_state.md R29). -/
def popMany {α : Type} (pop : State → Res α) : Nat → State → Res (List α)
  | 0, s => .ok [] s
  | n + 1, s => (pop s).andThen fun v s1 => (popMany pop n s1).andThen fun vs s2 => .ok (v :: vs) s2

/-- The most elements an instruction pops (spec/30_encoding.md R64, column "stack operands popped"). -/
def maxPops (i : Instr) : Nat :=
  match i with
  | .nop | .halt | .push _ | .dup | .load _ => 0
  | .pop | .store _ | .printI | .not | .jmp => 1
  | .add | .sub | .mul | .div | .mod | .and | .or => 2
  | .cmpE | .cmpNe | .cmpG | .cmpGe | .cmpL | .cmpLe => 2
  | .jif => 2

/-- The next state of an outcome, changed by `f`. -/
def mapNext (f : State → State) (o : Host.Outcome State Fault Refusal) : Host.Outcome State Fault Refusal :=
  match o with
  | .next t => .next (f t)
  | .fault r => .fault r
  | .refused r => .refused r

/-- The state with every frame's return address replaced by `r` (spec/10_state.md R20: no instruction reads
it). -/
def State.withReturnAddress (r : Word) (s : State) : State :=
  { s with fs := s.fs.map fun f => { f with ra := r } }

/-- The state with the events `old` put out before its own (spec/10_state.md R26: no instruction reads the
trace). -/
def State.withEarlierTrace (old : List TraceEvent) (s : State) : State := { s with trace := old ++ s.trace }

/-- The state `s` after a fault of its current instruction, recorded with the kind `k` and the sub-cause `sel`,
where `ip` was left at `ip'` and the operand stack at `os'` (spec/60_exceptions.md R147, R148). -/
def State.faultedAs (s : State) (k : FaultKind) (sel : BitVec 1) (ip' : Word) (os' : List Word) : State :=
  { s with ip := ip', os := os', rs := .faulted, fk := k, fsel := sel, fip := s.ip }

end Sys2Proof.Machine
end

