-- ==== Sys2Proof/Certificates/Slice0/Obligations.lean ====
section
/-! DEFINITION. The statements for the provers. Each docstring names the rules of spec/ its statement rests on, and
the spec's own decision (D) or the model's log entry where a clause rests on one. -/

open Sys2Proof Sys2Proof.Machine

/-- For every width and every injective opcode map into words of that width, for every instruction with every
immediate and whatever words follow, the decoder reads from the encoded words exactly that instruction and
leaves exactly the words after it (30_encoding.md R60, R62, R63, R64). -/
def Obligations.DecodeOfEncodeIsIdentity : Prop :=
  ∀ (xlen : Nat) (opc : OpcodeMap), opc.WellFormed xlen → ∀ (i : Instr) (rest : List Word),
    decode opc (encode opc i ++ rest) = .ok (i, rest)

/-- Whenever the decoder reads an instruction from a list of words, the list is the words of that instruction
followed by the words it left: each instruction has one spelling (30_encoding.md R60, R62, R65). -/
def Obligations.EncodeOfDecodeIsIdentity : Prop :=
  ∀ (opc : OpcodeMap) (ws : List Word) (i : Instr) (rest : List Word),
    decode opc ws = .ok (i, rest) → ws = encode opc i ++ rest

/-- Under the default width and opcode map (the spec's own choice, 92_eei_decisions.md D1 and D2; logs 12 and 22),
the bits of the words of every well-formed instruction, numbered as the opcode table numbers them in two slots
of 64 bits, decode to that instruction. -/
def Obligations.TableBitsOfEncodingDecode : Prop :=
  ∀ i : Instr, i.wellFormed 64 = true →
    decodeTableWord 128 (bitsOfSlots 64 (encode OpcodeMap.standard i)) = some i

/-- Under an injective opcode map a word is recognised as a mnemonic exactly when it is that mnemonic's value, so
at most one mnemonic matches and a word that matches none is no opcode; with the default map the word 8 is ADD
and the word 8 + 2^32 is no opcode (R62). -/
def Obligations.RecogniseComparesWholeWord : Prop :=
  (∀ (xlen : Nat) (opc : OpcodeMap), opc.WellFormed xlen → ∀ (w : Word),
      (∀ m : Mnemonic, recognise opc w = some m ↔ w = opc.word m) ∧
      (recognise opc w = none ↔ ∀ m : Mnemonic, w ≠ opc.word m)) ∧
    recognise OpcodeMap.standard 8 = some .add ∧
    recognise OpcodeMap.standard (8 + 2 ^ 32) = none

/-- An instruction takes two slots when its first word is the opcode of PUSH, LOAD or STORE, whatever the second
word is, and one slot for every other word: another opcode leaves all the words after it, and an invalid
opcode is rejected whatever follows and executes as one slot (R66). -/
def Obligations.LengthIsDecidedByOpcodeWord : Prop :=
  ∀ (xlen : Nat) (opc : OpcodeMap), opc.WellFormed xlen → ∀ (w : Word) (rest : List Word),
    ((w = opc.push ∨ w = opc.load ∨ w = opc.store) →
      ∀ imm : Word, ∃ i : Instr, i.slots = 2 ∧ decode opc (w :: imm :: rest) = .ok (i, rest)) ∧
    (¬ (w = opc.push ∨ w = opc.load ∨ w = opc.store) →
      (∃ i : Instr, i.slots = 1 ∧ decode opc (w :: rest) = .ok (i, rest)) ∨
      (decode opc (w :: rest) = .error (.invalidOpcode w) ∧
        ∀ s : State, ∃ t : State, execInvalid w s = .next t ∧ t.ip = s.ip + 1))

/-- Under the default opcode map, which is the spec's own choice (92_eei_decisions.md D1; log 12), a word is no
opcode exactly when it is negative or greater than 23 (30_encoding.md R65). -/
def Obligations.DefaultInvalidOpcodesAreOutsideTheTable : Prop :=
  ∀ w : Word, recognise OpcodeMap.standard w = none ↔ (w < 0 ∨ 23 < w)

/-- Under the default opcode numbers (the spec's own choice, 92_eei_decisions.md D1; log 12): the words 0, 11, 13,
18 and 23 are NOP, DIV, NOT, CMP_G and JIF, the word 2 with the slot 100 after it is PUSH 100, the word 6 with
the slot -2 after it is STORE -2, and the word 24 is no instruction. -/
def Obligations.TableWordsDecodeToTheirInstructions : Prop :=
  decodeTableWord 64 0 = some .nop ∧ decodeTableWord 64 11 = some .div ∧ decodeTableWord 64 13 = some .not ∧
    decodeTableWord 64 18 = some .cmpG ∧ decodeTableWord 64 23 = some .jif ∧
    decodeTableWord 128 0x00000000000000640000000000000002 = some (.push 100) ∧
    decodeTableWord 128 0xFFFFFFFFFFFFFFFE0000000000000006 = some (.store (-2)) ∧
    decodeTableWord 64 24 = none

/-- When the machine is Running, ip is not negative and the words of the instruction stream from ip on decode to
an instruction, the step is exec of that instruction in that same state; exec itself moves ip past the
instruction's slots (30_encoding.md R61, R63, R70; log 16). -/
def Obligations.StepRunsTheDecodedInstruction : Prop :=
  ∀ (s : State) (i : Instr) (rest : List Word), s.rs = .running → 0 ≤ s.ip →
    decode s.cfg.opc (s.cfg.prog.drop s.ip.toNat) = .ok (i, rest) → step s = exec i s

/-- When the machine is Running and the word at ip is no opcode, the step completes, emits the event T_INVALID
with that word (its form is the spec's decision D13), moves ip by one and changes nothing else: it is no fault
(40_general.md R82). -/
def Obligations.InvalidOpcodeIsATracedNoOp : Prop :=
  ∀ (s : State) (w : Word), s.rs = .running → memRead s.cfg s.ip = some w → recognise s.cfg.opc w = none →
    step s = .next { s with ip := s.ip + 1, trace := s.trace ++ [{ kind := .invalid, data := w }] }

/-- When the machine is Running and ip is negative or at least PROG_LEN, the step enters Faulted with FetchFault,
with fip that ip, and changes nothing else (60_exceptions.md R145, 30_encoding.md R61; the kind's name and fip
are the spec's decisions D6 and D10, logs 13 and 14). -/
def Obligations.OpcodeFetchOutsideTheStreamFaults : Prop :=
  ∀ s : State, s.rs = .running → (s.ip < 0 ∨ (s.cfg.prog.length : Int) ≤ s.ip) →
    step s = .next (s.faultedAs .fetchFault 0 s.ip s.os)

/-- When the machine is Running and the last slot of the stream, at ip, holds the opcode of PUSH, LOAD or STORE,
the step enters Faulted with FetchFault, fip that ip and ip one further, and changes nothing else, whether or
not the operand stack is full or empty (60_exceptions.md R145, R149; decisions D6 and D10, logs 13 and 14). -/
def Obligations.MissingImmediateSlotFaults : Prop :=
  ∀ (s : State) (w : Word), s.cfg.WellFormed → s.rs = .running → memRead s.cfg s.ip = some w →
    (w = s.cfg.opc.push ∨ w = s.cfg.opc.load ∨ w = s.cfg.opc.store) → s.ip + 1 = s.cfg.prog.length →
    step s = .next (s.faultedAs .fetchFault 0 (s.ip + 1) s.os)

/-- Every Running state has a next state, the step of a Ready state is the start event, and a Halted or Faulted
state has no next state; no other bound is set on a run (70_reset_and_hazards.md R176; that the start event is
presented as the step of a Ready state is the model's choice, log 4: the spec's own Step, R70, begins in
Running only). -/
def Obligations.StepExistsExactlyFromReadyAndRunning : Prop :=
  ∀ s : State, (s.rs = .running → ∃ t : State, step s = .next t) ∧
    (s.rs = .ready → step s = .next (startEvent s)) ∧
    ((∃ t : State, step s = .next t) ↔ s.rs ≠ .halted ∧ s.rs ≠ .faulted)

/-- A step leads from Ready to Running, or to Faulted when the frame stack is full; from Running to Running, to
Faulted, or to Halted, and to Halted only when the instruction fetched is HALT (10_state.md R23; the edge from
Ready to Faulted is the spec's decision D15; that the edges from Ready, which are the start event's, are steps
is the model's choice, log 4). -/
def Obligations.RunStateTransitionsAreTheListedOnes : Prop :=
  ∀ s t : State, step s = .next t →
    (s.rs = .ready ∧ t.rs = .running ∧ s.fs.length < s.cfg.frameCap) ∨
    (s.rs = .ready ∧ t.rs = .faulted ∧ s.cfg.frameCap ≤ s.fs.length) ∨
    (s.rs = .running ∧ t.rs = .running) ∨ (s.rs = .running ∧ t.rs = .faulted) ∨
    (s.rs = .running ∧ t.rs = .halted ∧ fetchInstr s = .instr .halt)

/-- No instruction and no step changes the instruction stream, its length or any other parameter, so the read of
every slot gives the same word after as before (R42). -/
def Obligations.NoStepWritesTheInstructionStream : Prop :=
  (∀ (i : Instr) (s t : State), exec i s = .next t → t.cfg = s.cfg) ∧
    (∀ s t : State, step s = .next t → t.cfg = s.cfg ∧ ∀ a : Word, memRead t.cfg a = memRead s.cfg a)

/-- From every state, a reset that presents a program and two capacities in the parameters' range gives the state
Ready with ip 0, both stacks empty, fault record 0 and an empty trace, those three latched, and the width, the
opcode map and the overflow policy, which the build fixes, and the sink's texts, as they were (10_state.md
R28, 70_reset_and_hazards.md R170; ip is the spec's decision D11; that the texts are kept is log 10); a
configuration out of range is refused (U20, log 17). -/
def Obligations.ResetEventGivesTheResetValues : Prop :=
  ∀ (r : ResetInputs) (s : State) (c : Configuration),
    c = { xlen := s.cfg.xlen, opc := s.cfg.opc, policy := s.cfg.policy, texts := s.cfg.texts,
          prog := r.prog, stackCap := r.stackCap, frameCap := r.frameCap } →
    (c.WellFormed → resetEvent r s = .next
      { cfg := c, ip := 0, os := [], fs := [], rs := .ready, fk := .none, fsel := 0, fip := 0, trace := [] }) ∧
    (¬ c.WellFormed → resetEvent r s = .refused .configurationOutOfRange)

/-- From a Ready state with room on the frame stack the step sets ip to 0, pushes one frame with return address 0
in which every variable reads 0, and sets Running; with FRAME_CAP = 0 it enters Faulted with StackOverflow on
the frame stack, fip 0 and ip 0 (70_reset_and_hazards.md R171; the second part is the spec's decision D15;
that the start event is presented as the step of a Ready state is the model's choice, log 4, and R176 counts
Start apart from the steps). -/
def Obligations.StartEventBeginsTheRun : Prop :=
  ∀ s : State, s.rs = .ready →
    (s.fs.length < s.cfg.frameCap → ∃ f : Frame, f.ra = 0 ∧ (∀ id : Word, varRead f id = 0) ∧
      step s = .next { s with ip := 0, fs := f :: s.fs, rs := .running }) ∧
    (s.cfg.frameCap = 0 →
      step s = .next { s with ip := 0, rs := .faulted, fk := .stackOverflow, fsel := 1, fip := 0 })

/-- A start event that arrives when the machine is Running, Halted or Faulted leaves every part of the state as it
was (70_reset_and_hazards.md R173, the spec's decision D16, log 20). -/
def Obligations.StartEventActsOnlyInReady : Prop :=
  ∀ s : State, s.rs ≠ .ready → startEvent s = s

/-- From every state that satisfies the invariant (parameters in range; every value held is a word of XLEN bits;
both stacks within capacity; every variable store in canonical form; the fault record legal, with the
unreachable kinds absent; exactly the initial frame in a run and a fault recorded exactly in Faulted), a step
that answers a next state gives a state that satisfies it (the step of a Ready state is the start event by the
model's choice, log 4). -/
def Obligations.StepKeepsTheMachineInvariant : Prop :=
  ∀ s t : State, s.Inv → step s = .next t → t.Inv

/-- The state after the default reset satisfies the invariant, so does the reset state of any configuration in the
parameters' range, and so does the state after every reset event that is not refused. -/
def Obligations.ResetSatisfiesTheMachineInvariant : Prop :=
  State.reset.Inv ∧ (∀ c : Configuration, c.WellFormed → (State.resetWith c).Inv) ∧
    ∀ (r : ResetInputs) (s t : State), resetEvent r s = .next t → t.Inv

/-- OsPush succeeds exactly when osp is below STACK_CAP: it puts v in OS[osp], adds one to osp and leaves the
other elements alone, else it raises StackOverflow on the operand stack and changes nothing, so with STACK_CAP
= 0 every push fails; OsPop on a nonempty stack removes and returns OS[osp - 1]; OsPeek returns it and changes
nothing; on an empty stack both raise StackUnderflow on the operand stack and change nothing (R14, R15, R16). -/
def Obligations.OperandStackOperationContracts : Prop :=
  ∀ (s : State) (v : Word),
    (s.os.length < s.cfg.stackCap → ∃ t : State, osPush v s = .ok () t ∧
      t = { s with os := t.os } ∧ t.os.length = s.os.length + 1 ∧
      BoundedStack.element t.os s.os.length = some v ∧
      ∀ k, k < s.os.length → BoundedStack.element t.os k = BoundedStack.element s.os k) ∧
    (s.cfg.stackCap ≤ s.os.length → osPush v s = .raised (.stackOverflow .operand) s) ∧
    (s.cfg.stackCap = 0 → osPush v s = .raised (.stackOverflow .operand) s) ∧
    (s.os.length ≠ 0 → ∃ (t : State) (x : Word), osPop s = .ok x t ∧ osPeek s = .ok x s ∧
      BoundedStack.element s.os (s.os.length - 1) = some x ∧
      t = { s with os := t.os } ∧ t.os.length + 1 = s.os.length ∧
      ∀ k, k < t.os.length → BoundedStack.element t.os k = BoundedStack.element s.os k) ∧
    (s.os.length = 0 → osPop s = .raised (.stackUnderflow .operand) s ∧
      osPeek s = .raised (.stackUnderflow .operand) s)

/-- FsPush, FsPop and FsPeek have the contract of the operand stack's operations, with FRAME_CAP, and raise
StackOverflow and StackUnderflow on the frame stack (10_state.md R19). -/
def Obligations.FrameStackOperationContracts : Prop :=
  ∀ (s : State) (f : Frame),
    (s.fs.length < s.cfg.frameCap → fsPush f s = .ok () { s with fs := f :: s.fs }) ∧
    (s.cfg.frameCap ≤ s.fs.length → fsPush f s = .raised (.stackOverflow .frame) s) ∧
    (s.fs = [] → fsPop s = .raised (.stackUnderflow .frame) s ∧ fsPeek s = .raised (.stackUnderflow .frame) s) ∧
    (∀ (g : Frame) (rest : List Frame), s.fs = g :: rest →
      fsPop s = .ok g { s with fs := rest } ∧ fsPeek s = .ok g s)

/-- The three queries are the count osp, whether osp is 0, and whether osp is STACK_CAP; within capacity a pop
raises exactly when isEmpty holds and a push raises exactly when isFull holds (R17). -/
def Obligations.StackQueriesTellWhatSucceeds : Prop :=
  ∀ s : State,
    BoundedStack.count s.os = s.os.length ∧ (BoundedStack.isEmpty s.os = true ↔ s.os.length = 0) ∧
    (BoundedStack.isFull s.cfg.stackCap s.os = true ↔ s.os.length = s.cfg.stackCap) ∧
    (BoundedStack.isEmpty s.os = true ↔ osPop s = .raised (.stackUnderflow .operand) s) ∧
    (s.os.length ≤ s.cfg.stackCap →
      (BoundedStack.isFull s.cfg.stackCap s.os = true ↔
        ∀ v : Word, osPush v s = .raised (.stackOverflow .operand) s))

/-- For every sequence of pushes within capacity followed by the same number of pops, the popped values are the
pushed ones in reverse order and the state is as before; a push at capacity overflows and changes nothing; a
pop or peek of an empty stack underflows and changes nothing; a successful peek removes nothing; and all of it
for the frame stack too (R29). -/
def Obligations.LifoLawOfBothStacks : Prop :=
  (∀ (s : State) (vs : List Word),
    (s.os.length + vs.length ≤ s.cfg.stackCap → ∃ t : State, pushAll osPush vs s = .ok () t ∧
      popMany osPop vs.length t = .ok vs.reverse s) ∧
    (s.os.length = s.cfg.stackCap → ∀ v, osPush v s = .raised (.stackOverflow .operand) s) ∧
    (s.os = [] → osPop s = .raised (.stackUnderflow .operand) s ∧
      osPeek s = .raised (.stackUnderflow .operand) s) ∧
    (∀ v t, osPeek s = .ok v t → t = s)) ∧
  (∀ (s : State) (vs : List Frame),
    (s.fs.length + vs.length ≤ s.cfg.frameCap → ∃ t : State, pushAll fsPush vs s = .ok () t ∧
      popMany fsPop vs.length t = .ok vs.reverse s) ∧
    (s.fs.length = s.cfg.frameCap → ∀ v, fsPush v s = .raised (.stackOverflow .frame) s) ∧
    (s.fs = [] → fsPop s = .raised (.stackUnderflow .frame) s ∧
      fsPeek s = .raised (.stackUnderflow .frame) s) ∧
    (∀ v t, fsPeek s = .ok v t → t = s))

/-- In every state NOP completes, moving ip by one slot and emitting (T_NOP, 0), and HALT completes, moving ip by
one slot, emitting (T_HALT, 0) and setting Halted; nothing else changes: both stacks, the variable store and
the fault record keep their values (40_general.md R80, R81; the form of the events is the spec's decision
D13). -/
def Obligations.NopAndHaltEffects : Prop :=
  ∀ s : State,
    exec .nop s = .next { s with ip := s.ip + 1, trace := s.trace ++ [{ kind := .nop, data := 0 }] } ∧
    exec .halt s = .next
      { s with ip := s.ip + 1, rs := .halted, trace := s.trace ++ [{ kind := .halt, data := 0 }] }

/-- With room on the operand stack PUSH completes: its immediate is the new top, ip moves by two slots and nothing
else changes; with the stack full it enters Faulted with StackOverflow on the operand stack, ip moved by two
slots and the stack as it was (41_data.md R90). -/
def Obligations.PushEffect : Prop :=
  ∀ (imm : Word) (s : State),
    (s.os.length < s.cfg.stackCap → exec (.push imm) s = .next { s with ip := s.ip + 2, os := imm :: s.os }) ∧
    (s.cfg.stackCap ≤ s.os.length →
      exec (.push imm) s = .next (s.faultedAs .stackOverflow 0 (s.ip + 2) s.os))

/-- With an element v on top POP completes, removing it, and PRINT_I completes, removing it and emitting (T_PRINT,
v); ip moves by one slot and nothing else changes; on an empty stack both enter Faulted with StackUnderflow on
the operand stack, ip moved by one slot, and nothing is emitted (41_data.md R91, R95). -/
def Obligations.PopAndPrintEffects : Prop :=
  ∀ s : State,
    (∀ (v : Word) (rest : List Word), s.os = v :: rest →
      exec .pop s = .next { s with ip := s.ip + 1, os := rest } ∧
      exec .printI s = .next
        { s with ip := s.ip + 1, os := rest, trace := s.trace ++ [{ kind := .print, data := v }] }) ∧
    (s.os = [] → ∀ i ∈ [Instr.pop, Instr.printI],
      exec i s = .next (s.faultedAs .stackUnderflow 0 (s.ip + 1) []))

/-- With an element v on top and room for one more DUP completes, leaving v twice on top, ip moved by one slot and
nothing else changed; on an empty stack it enters Faulted with StackUnderflow, capacity 0 included; on a full
nonempty stack with StackOverflow; in both cases the stack is as it was and ip has moved by one slot
(41_data.md R92, 60_exceptions.md R149). -/
def Obligations.DupEffect : Prop :=
  ∀ s : State,
    (∀ (v : Word) (rest : List Word), s.os = v :: rest →
      (s.os.length < s.cfg.stackCap → exec .dup s = .next { s with ip := s.ip + 1, os := v :: v :: rest }) ∧
      (s.cfg.stackCap ≤ s.os.length →
        exec .dup s = .next (s.faultedAs .stackOverflow 0 (s.ip + 1) s.os))) ∧
    (s.os = [] → exec .dup s = .next (s.faultedAs .stackUnderflow 0 (s.ip + 1) []))

/-- With a frame on the frame stack and room on the operand stack LOAD id completes: the value of cell id of the
top frame is the new top, ip moves by two slots and nothing else changes; with the operand stack full it
enters Faulted with StackOverflow on it, the stack as it was; with no frame, which no run reaches, it enters
Faulted with StackUnderflow on the frame stack, before the push is tried (41_data.md R93; the order is the
spec's decision D17). -/
def Obligations.LoadEffect : Prop :=
  ∀ (id : Word) (s : State),
    (∀ (f : Frame) (rest : List Frame), s.fs = f :: rest →
      (s.os.length < s.cfg.stackCap →
        exec (.load id) s = .next { s with ip := s.ip + 2, os := varRead f id :: s.os }) ∧
      (s.cfg.stackCap ≤ s.os.length →
        exec (.load id) s = .next (s.faultedAs .stackOverflow 0 (s.ip + 2) s.os))) ∧
    (s.fs = [] → exec (.load id) s = .next (s.faultedAs .stackUnderflow 1 (s.ip + 2) s.os))

/-- With an element v on top and a frame f on the frame stack, in canonical form, STORE id completes: v is
removed, ip moves by two slots, only the top frame's variable store changes, and in it cell id reads v and
every other cell reads as before, the return address and every other frame as before; on an empty operand
stack it enters Faulted with StackUnderflow on it and no variable is written; with an element but no frame,
which no run reaches, with StackUnderflow on the frame stack and the element removed (41_data.md R94; the
order is decision D17). -/
def Obligations.StoreEffect : Prop :=
  ∀ (id : Word) (s : State),
    (∀ (v : Word) (rest : List Word) (f : Frame) (frames : List Frame),
      s.os = v :: rest → s.fs = f :: frames → Memory.wf f.vars →
      ∃ g : Frame, exec (.store id) s = .next { s with ip := s.ip + 2, os := rest, fs := g :: frames } ∧
        g.ra = f.ra ∧ varRead g id = v ∧ ∀ other : Word, other ≠ id → varRead g other = varRead f other) ∧
    (s.os = [] → exec (.store id) s = .next (s.faultedAs .stackUnderflow 0 (s.ip + 2) [])) ∧
    (∀ (v : Word) (rest : List Word), s.os = v :: rest → s.fs = [] →
      exec (.store id) s = .next (s.faultedAs .stackUnderflow 1 (s.ip + 2) rest))

/-- VarWrite puts v in cell id of the frame, creating or overwriting it, for every word id and every word v: a
read of id then returns v, a read of every other id returns what it returned before, and the return address is
unchanged; when STORE writes a frame back, every other frame is unchanged; a second write of the same cell
leaves what the second write alone leaves (R22). -/
def Obligations.VariableWriteContract : Prop :=
  (∀ (f : Frame) (id v : Word), Memory.wf f.vars →
    varRead (varWrite f id v) id = v ∧
    (∀ other : Word, other ≠ id → varRead (varWrite f id v) other = varRead f other) ∧
    (varWrite f id v).ra = f.ra ∧
    (∀ w : Word, varWrite (varWrite f id w) id v = varWrite f id v)) ∧
  (∀ (id : Word) (s t : State) (v : Word) (rest : List Word), s.os = v :: rest → s.fs ≠ [] →
    exec (.store id) s = .next t →
      t.fs.tail = s.fs.tail ∧ t.fs.head? = s.fs.head?.map fun f => varWrite f id v)

/-- In every Running state within capacity, with an element on top and a frame in canonical form, STORE id
completes, and LOAD id after it completes and leaves the operand stack exactly as it was before the STORE
(10_state.md R22). -/
def Obligations.StoreThenLoadReturnsTheValue : Prop :=
  ∀ (id : Word) (s : State) (f : Frame) (frames : List Frame), s.os ≠ [] → s.os.length ≤ s.cfg.stackCap →
    s.fs = f :: frames → Memory.wf f.vars →
    ∃ t u : State, exec (.store id) s = .next t ∧ exec (.load id) t = .next u ∧ u.os = s.os ∧ u.rs = s.rs

/-- Each of the five pops b and then a and pushes op(a, b): with two elements and a result it completes, with the
result in the place of both and ip moved by one slot; on an empty stack and on a stack of one element, which
is then removed, it enters Faulted with StackUnderflow on the operand stack; when op raises, it enters Faulted
with ArithmeticFault, both operands removed and nothing pushed; within capacity the push cannot overflow; ip
moves by one slot in every case (R100). -/
def Obligations.ArithmeticProtocol : Prop :=
  ∀ p ∈ [(Instr.add, aluAdd), (Instr.sub, aluSub), (Instr.mul, aluMul), (Instr.div, aluDiv), (Instr.mod, aluMod)],
  ∀ s : State,
    (s.os = [] → exec p.1 s = .next (s.faultedAs .stackUnderflow 0 (s.ip + 1) [])) ∧
    (∀ b : Word, s.os = [b] → exec p.1 s = .next (s.faultedAs .stackUnderflow 0 (s.ip + 1) [])) ∧
    (∀ (a b : Word) (rest : List Word), s.os = b :: a :: rest →
      (∀ r : Word, p.2 s.cfg a b = .ok r → s.os.length ≤ s.cfg.stackCap →
        exec p.1 s = .next { s with ip := s.ip + 1, os := r :: rest }) ∧
      (p.2 s.cfg a b = .error .zeroDivisor →
        exec p.1 s = .next (s.faultedAs .arithmeticFault 0 (s.ip + 1) rest)) ∧
      (p.2 s.cfg a b = .error .overflow →
        exec p.1 s = .next (s.faultedAs .arithmeticFault 1 (s.ip + 1) rest)))

/-- With two elements, a under b, on a stack within capacity: when the exact sum, difference a - b or product is a
word, ADD, SUB and MUL complete with exactly it; under the policy wrap they complete with the word congruent
to it modulo 2^XLEN; under the policy fault an exact result that is no word enters Faulted with
ArithmeticFault overflow and both operands removed (42_arithmetic.md R101, R102, R103, R106; the policy is the
spec's decision D3, log 11). -/
def Obligations.AddSubMulResults : Prop :=
  ∀ (s : State) (a b : Word) (rest : List Word), 1 ≤ s.cfg.xlen →
    s.os = b :: a :: rest → s.os.length ≤ s.cfg.stackCap →
    ∀ p ∈ [(Instr.add, a + b), (Instr.sub, a - b), (Instr.mul, a * b)],
      (InRange s.cfg.xlen p.2 → exec p.1 s = .next { s with ip := s.ip + 1, os := p.2 :: rest }) ∧
      (s.cfg.policy = .wrap → ∃ r : Word, InRange s.cfg.xlen r ∧ ((2 ^ s.cfg.xlen : Nat) : Int) ∣ p.2 - r ∧
        exec p.1 s = .next { s with ip := s.ip + 1, os := r :: rest }) ∧
      (s.cfg.policy = .fault → ¬ InRange s.cfg.xlen p.2 →
        exec p.1 s = .next (s.faultedAs .arithmeticFault 1 (s.ip + 1) rest))

/-- With two words, a under a nonzero b, on a stack within capacity, and not a = MIN with b = -1: DIV completes
with the quotient of a by b truncated toward zero and MOD completes with the remainder of that division
(42_arithmetic.md R104, R105, R108; that the modulo is that remainder is the spec's reading G1, log 18). -/
def Obligations.DivModResults : Prop :=
  ∀ (s : State) (a b : Word) (rest : List Word), 1 ≤ s.cfg.xlen → InRange s.cfg.xlen a → InRange s.cfg.xlen b →
    b ≠ 0 → ¬ (a = minWord s.cfg.xlen ∧ b = -1) → s.os = b :: a :: rest → s.os.length ≤ s.cfg.stackCap →
    exec .div s = .next { s with ip := s.ip + 1, os := Int.tdiv a b :: rest } ∧
    exec .mod s = .next { s with ip := s.ip + 1, os := Int.tmod a b :: rest }

/-- When the operand popped first is 0 and there is a second operand, whatever that is, 0 included, and under
either overflow policy, DIV and MOD enter Faulted with ArithmeticFault and sub-cause zero_divisor, both
operands removed and nothing pushed (R107). -/
def Obligations.ZeroDivisorAlwaysFaults : Prop :=
  ∀ (s : State) (a : Word) (rest : List Word), s.os = 0 :: a :: rest →
    exec .div s = .next (s.faultedAs .arithmeticFault 0 (s.ip + 1) rest) ∧
    exec .mod s = .next (s.faultedAs .arithmeticFault 0 (s.ip + 1) rest)

/-- For words a and b with b not 0, the truncated quotient is a word unless a is MIN and b is -1, and the
remainder is always a word; for that pair DIV gives MIN and MOD gives 0 under wrap, and both enter Faulted
with ArithmeticFault overflow under fault (42_arithmetic.md R109, the spec's decision D5, log 11). -/
def Obligations.OnlyMinByMinusOneOverflows : Prop :=
  (∀ (xlen : Nat) (a b : Word), 1 ≤ xlen → InRange xlen a → InRange xlen b → b ≠ 0 →
    (¬ InRange xlen (tdiv a b) ↔ a = minWord xlen ∧ b = -1) ∧ InRange xlen (tmod a b)) ∧
  (∀ (s : State) (rest : List Word), 1 ≤ s.cfg.xlen → s.os = -1 :: minWord s.cfg.xlen :: rest →
    s.os.length ≤ s.cfg.stackCap →
    (s.cfg.policy = .wrap →
      exec .div s = .next { s with ip := s.ip + 1, os := minWord s.cfg.xlen :: rest } ∧
      exec .mod s = .next { s with ip := s.ip + 1, os := 0 :: rest }) ∧
    (s.cfg.policy = .fault →
      exec .div s = .next (s.faultedAs .arithmeticFault 1 (s.ip + 1) rest) ∧
      exec .mod s = .next (s.faultedAs .arithmeticFault 1 (s.ip + 1) rest)))

/-- For integers a and b with b not 0: a = tdiv(a, b) * b + tmod(a, b); the remainder is smaller than b in
magnitude and is 0 or has the sign of a; the quotient's magnitude is the exact quotient's rounded down, and it
is not negative for operands of like sign and not positive for operands of unlike sign (42_arithmetic.md R108;
the remainder is the spec's reading G1, log 18). -/
def Obligations.TruncatingDivisionLaw : Prop :=
  ∀ a b : Int, b ≠ 0 →
    a = tdiv a b * b + tmod a b ∧ (tmod a b).natAbs < b.natAbs ∧
    (tmod a b = 0 ∨ (tmod a b).sign = a.sign) ∧
    (tdiv a b).natAbs * b.natAbs ≤ a.natAbs ∧ a.natAbs < ((tdiv a b).natAbs + 1) * b.natAbs ∧
    (0 ≤ a * b → 0 ≤ tdiv a b) ∧ (a * b ≤ 0 → tdiv a b ≤ 0)

/-- For every width of at least one bit and every integer z, wrap(z) is a word of that width congruent to z modulo
2^XLEN, and it is the only one (00_scope.md R4; two's complement is the spec's decision D2, log 1). -/
def Obligations.WrapIsTheUniqueCongruentWord : Prop :=
  ∀ (xlen : Nat) (z : Int), 1 ≤ xlen →
    InRange xlen (wrap xlen z) ∧ ((2 ^ xlen : Nat) : Int) ∣ z - wrap xlen z ∧
    ∀ w : Int, InRange xlen w → ((2 ^ xlen : Nat) : Int) ∣ z - w → w = wrap xlen z

/-- NOT replaces the top a by 1 if a is 0 and else by 0; AND and OR pop b and a, always both, and push 1 if both
are nonzero, or at least one, and else 0; ip moves by one slot and nothing else changes; with too few elements
they enter Faulted with StackUnderflow, the elements there were removed (43_logic.md R113, R114, R115). -/
def Obligations.LogicEffects : Prop :=
  ∀ s : State, s.os.length ≤ s.cfg.stackCap →
    (∀ (a : Word) (rest : List Word), s.os = a :: rest →
      exec .not s = .next { s with ip := s.ip + 1, os := (if a = 0 then 1 else 0) :: rest }) ∧
    (∀ (a b : Word) (rest : List Word), s.os = b :: a :: rest →
      exec .and s = .next { s with ip := s.ip + 1, os := (if a ≠ 0 ∧ b ≠ 0 then 1 else 0) :: rest } ∧
      exec .or s = .next { s with ip := s.ip + 1, os := (if a ≠ 0 ∨ b ≠ 0 then 1 else 0) :: rest }) ∧
    (s.os = [] → ∀ i ∈ [Instr.not, Instr.and, Instr.or],
      exec i s = .next (s.faultedAs .stackUnderflow 0 (s.ip + 1) [])) ∧
    (∀ b : Word, s.os = [b] → ∀ i ∈ [Instr.and, Instr.or],
      exec i s = .next (s.faultedAs .stackUnderflow 0 (s.ip + 1) []))

/-- Each of the six pops b and then a and pushes 1 if the relation of a, on its left, to b, on its right, holds of
the signed integers, and else 0: equal, not equal, greater, greater or equal, less, less or equal; ip moves by
one slot, osp falls by one and nothing else changes; with too few elements it enters Faulted with
StackUnderflow, b removed if it was there (R120). -/
def Obligations.ComparisonProtocol : Prop :=
  ∀ s : State, s.os.length ≤ s.cfg.stackCap →
    (∀ (a b : Word) (rest : List Word), s.os = b :: a :: rest →
      exec .cmpE s = .next { s with ip := s.ip + 1, os := (if a = b then 1 else 0) :: rest } ∧
      exec .cmpNe s = .next { s with ip := s.ip + 1, os := (if a ≠ b then 1 else 0) :: rest } ∧
      exec .cmpG s = .next { s with ip := s.ip + 1, os := (if a > b then 1 else 0) :: rest } ∧
      exec .cmpGe s = .next { s with ip := s.ip + 1, os := (if a ≥ b then 1 else 0) :: rest } ∧
      exec .cmpL s = .next { s with ip := s.ip + 1, os := (if a < b then 1 else 0) :: rest } ∧
      exec .cmpLe s = .next { s with ip := s.ip + 1, os := (if a ≤ b then 1 else 0) :: rest }) ∧
    (∀ i ∈ [Instr.cmpE, Instr.cmpNe, Instr.cmpG, Instr.cmpGe, Instr.cmpL, Instr.cmpLe],
      (s.os = [] → exec i s = .next (s.faultedAs .stackUnderflow 0 (s.ip + 1) [])) ∧
      (∀ b : Word, s.os = [b] → exec i s = .next (s.faultedAs .stackUnderflow 0 (s.ip + 1) [])))

/-- Whenever NOT, AND, OR or one of the six comparisons takes a Running state to a Running state, whatever its
operands were, the new top of the operand stack is 0 or 1 (R116). -/
def Obligations.LogicAndComparisonResultsAreZeroOrOne : Prop :=
  ∀ i ∈ [Instr.not, Instr.and, Instr.or, Instr.cmpE, Instr.cmpNe, Instr.cmpG, Instr.cmpGe, Instr.cmpL, Instr.cmpLe],
  ∀ s t : State, s.rs = .running → exec i s = .next t → t.rs = .running →
    ∃ (r : Word) (rest : List Word), t.os = r :: rest ∧ (r = 0 ∨ r = 1)

/-- No instruction raises UnknownComparisonOperator; the relation evaluator given an opcode outside the comparison
family raises it after both pops and before anything is pushed (44_comparison.md R127, 60_exceptions.md R144;
the place of the check is the spec's decision D21, log 15). -/
def Obligations.UnknownComparisonOperatorIsUnreachable : Prop :=
  (∀ (i : Instr) (s t : State), exec i s = .next t → t.fk = .unknownComparisonOperator →
    s.fk = .unknownComparisonOperator) ∧
  (∀ (m : Mnemonic) (s : State) (a b : Word) (rest : List Word),
    m ∉ [Mnemonic.cmpE, .cmpNe, .cmpG, .cmpGe, .cmpL, .cmpLe] → s.os = b :: a :: rest →
    evalCompare m s = .raised .unknownComparisonOperator { s with os := rest })

/-- With an element t on top JMP completes: t is removed, ip is t, whatever word t is, and nothing else changes;
if the machine is Running and t is negative or at least PROG_LEN, the step after it enters Faulted with
FetchFault and fip t; on an empty stack JMP enters Faulted with StackUnderflow and ip moved by one slot
(45_control_flow.md R130, R132; the place of the check is the spec's decision D7, log 13). -/
def Obligations.JmpEffect : Prop :=
  ∀ s : State,
    (∀ (t : Word) (rest : List Word), s.os = t :: rest →
      exec .jmp s = .next { s with ip := t, os := rest } ∧
      (s.rs = .running → (t < 0 ∨ (s.cfg.prog.length : Int) ≤ t) →
        step { s with ip := t, os := rest } =
          .next { s with ip := t, os := rest, rs := .faulted, fk := .fetchFault, fsel := 0, fip := t })) ∧
    (s.os = [] → exec .jmp s = .next (s.faultedAs .stackUnderflow 0 (s.ip + 1) []))

/-- With a nonzero condition c on top, negative ones included, and a target t under it JIF completes: both are
removed and ip is t; with a zero condition on top JIF completes: exactly one element is removed and ip moves
by one slot, whether or not there is an element under it; nothing else changes; with a nonzero condition alone
it enters Faulted with StackUnderflow, the condition removed; on an empty stack likewise; ip has then moved by
one slot (45_control_flow.md R131). -/
def Obligations.JifEffect : Prop :=
  ∀ s : State,
    (∀ (c t : Word) (rest : List Word), c ≠ 0 → s.os = c :: t :: rest →
      exec .jif s = .next { s with ip := t, os := rest }) ∧
    (∀ rest : List Word, s.os = 0 :: rest → exec .jif s = .next { s with ip := s.ip + 1, os := rest }) ∧
    (∀ c : Word, c ≠ 0 → s.os = [c] →
      exec .jif s = .next (s.faultedAs .stackUnderflow 0 (s.ip + 1) [])) ∧
    (s.os = [] → exec .jif s = .next (s.faultedAs .stackUnderflow 0 (s.ip + 1) []))

/-- Every instruction other than JMP and JIF, and an invalid opcode, leaves ip at the slot after its last slot,
one or two further by its format, also when it faults; so does a JIF whose condition is zero, and a JMP or JIF
that faults; there is no delay slot: the state after a jump has its ip at the target already (R134). -/
def Obligations.SequentialAdvanceOfIp : Prop :=
  (∀ (i : Instr) (s t : State), i ≠ .jmp → i ≠ .jif → exec i s = .next t →
    t.ip = s.ip + (if i.mnemonic ∈ [Mnemonic.push, .load, .store] then 2 else 1)) ∧
  (∀ (w : Word) (s t : State), execInvalid w s = .next t → t.ip = s.ip + 1) ∧
  (∀ (s t : State) (rest : List Word), s.os = 0 :: rest → exec .jif s = .next t → t.ip = s.ip + 1) ∧
  (∀ i ∈ [Instr.jmp, Instr.jif], ∀ s t : State, s.rs ≠ .faulted → exec i s = .next t → t.rs = .faulted →
    t.ip = s.ip + 1) ∧
  (∀ (s t : State) (target : Word) (rest : List Word), s.os = target :: rest → exec .jmp s = .next t →
    t.ip = target)

/-- When an instruction takes a state that is not Faulted to a Faulted one, the fault record names the index the
instruction began at and a kind other than none, ip is past the instruction's slots, the frame stack with
every variable, the trace and the parameters are unchanged, and of the operand stack only elements at the top
are missing: nothing was added (60_exceptions.md R147, R148). -/
def Obligations.FaultingInstructionLeavesStoreAndTrace : Prop :=
  ∀ (i : Instr) (s t : State), s.rs ≠ .faulted → exec i s = .next t → t.rs = .faulted →
    t.fip = s.ip ∧ t.fk ≠ .none ∧ t.ip = s.ip + i.slots ∧ t.fs = s.fs ∧ t.trace = s.trace ∧ t.cfg = s.cfg ∧
    t.os <:+ s.os

/-- When an instruction takes a state to one that is not Faulted, the fault record is unchanged, and the run state
is unchanged unless the instruction is HALT, which sets Halted (10_state.md R24, R25; 60_exceptions.md R147). -/
def Obligations.OnlyAFaultWritesTheFaultRecord : Prop :=
  ∀ (i : Instr) (s t : State), exec i s = .next t → t.rs ≠ .faulted →
    t.fk = s.fk ∧ t.fsel = s.fsel ∧ t.fip = s.fip ∧ (i ≠ .halt → t.rs = s.rs) ∧ (i = .halt → t.rs = .halted)

/-- When any instruction other than STORE answers a next state, the frame stack with all its variables is
unchanged; when STORE id does, every cell other than id of the top frame, every other frame and every return
address is unchanged (20_memory.md R40, R43; 10_state.md R22). -/
def Obligations.OnlyStoreWritesVariables : Prop :=
  (∀ (i : Instr) (s t : State), (∀ id : Word, i ≠ .store id) → exec i s = .next t → t.fs = s.fs) ∧
  (∀ (id : Word) (s t : State) (f : Frame) (frames : List Frame), s.fs = f :: frames → Memory.wf f.vars →
    exec (.store id) s = .next t → ∃ g : Frame, t.fs = g :: frames ∧ g.ra = f.ra ∧
      ∀ other : Word, other ≠ id → varRead g other = varRead f other)

/-- Whenever an instruction answers a next state, the elements below those it may pop are still there, in their
places at the bottom of the operand stack (10_state.md R13, 20_memory.md R44). -/
def Obligations.ElementsBelowTheOperandsAreUntouched : Prop :=
  ∀ (i : Instr) (s t : State), exec i s = .next t → s.os.drop (maxPops i) <:+ t.os

/-- An instruction other than NOP, HALT and PRINT_I leaves the trace as it was; those three and an invalid opcode,
when they do not fault, append exactly one event of their own kind (10_state.md R26; the form of the events is
the spec's decision D13, log 9). -/
def Obligations.OnlyFourCasesEmitEvents : Prop :=
  (∀ (i : Instr) (s t : State), i ≠ .nop → i ≠ .halt → i ≠ .printI → exec i s = .next t → t.trace = s.trace) ∧
  (∀ s t : State, exec .nop s = .next t → t.trace = s.trace ++ [{ kind := .nop, data := 0 }]) ∧
  (∀ s t : State, exec .halt s = .next t → t.trace = s.trace ++ [{ kind := .halt, data := 0 }]) ∧
  (∀ s t : State, exec .printI s = .next t →
    (s.os = [] → t.trace = s.trace) ∧
    (∀ (v : Word) (rest : List Word), s.os = v :: rest →
      t.trace = s.trace ++ [{ kind := .print, data := v }])) ∧
  (∀ (w : Word) (s t : State), execInvalid w s = .next t →
    t.trace = s.trace ++ [{ kind := .invalid, data := w }])

/-- Two states that differ only in the events put out before take steps with the same outcome, and their next
states differ only in those events (10_state.md R26: no instruction reads the trace; the step of a Ready state
is the start event by the model's choice, log 4). -/
def Obligations.TraceIsNeverRead : Prop :=
  ∀ (old : List TraceEvent) (s : State),
    step (s.withEarlierTrace old) = mapNext (State.withEarlierTrace old) (step s)

/-- The number of frames and their return addresses are the same after every instruction as before, and two states
that differ only in their frames' return addresses take any instruction to states that differ only there
(45_control_flow.md R133, 10_state.md R19, R20). -/
def Obligations.ReturnAddressIsNeverReadNorFramesDriven : Prop :=
  (∀ (i : Instr) (s t : State), exec i s = .next t → t.fs.map (·.ra) = s.fs.map (·.ra)) ∧
  (∀ (i : Instr) (r : Word) (s : State),
    exec i (s.withReturnAddress r) = mapNext (State.withReturnAddress r) (exec i s))

/-- A run has a result exactly when it is Halted, which is success, or Faulted, which is failure with the recorded
kind, sub-cause and index; and once a run has a result within some number of steps, it has the same result and
the same state within every larger number (60_exceptions.md R159, R152; 70_reset_and_hazards.md R174; a step
counted from Ready is the start event by the model's choice, log 4). -/
def Obligations.EndedRunKeepsItsResult : Prop :=
  (∀ s : State, (s.result = some .success ↔ s.rs = .halted) ∧
    (∀ (k : FaultKind) (sel : BitVec 1) (at_ : Word), s.result = some (.failure k sel at_) ↔
      s.rs = .faulted ∧ s.fk = k ∧ s.fsel = sel ∧ s.fip = at_)) ∧
  (∀ (n m : Nat) (s : State) (r : RunResult), runResult n s = some r → n ≤ m →
    runResult m s = some r ∧ runFor m s = runFor n s)

/-- For every word v, dec(v) is a minus sign exactly when v is negative, then at least one character, each one of
the digits 0 to 9, whose value read in base ten is the magnitude of v, with no leading zero unless it is the
single digit 0 (41_data.md R96, the spec's decision D14, log 10). -/
def Obligations.DecimalRenderingIsExact : Prop :=
  ∀ v : Word, ∃ ds : List Nat, ds ≠ [] ∧ (∀ d ∈ ds, d < 10) ∧
    ds.foldl (fun acc d => 10 * acc + d) 0 = v.natAbs ∧ (ds.head? = some 0 → ds = [0]) ∧
    dec v = String.ofList ((if v < 0 then ['-'] else []) ++ ds.map fun d => Char.ofNat ('0'.toNat + d))
end

