-- ==== Sys2Proof/Laws/Arith.lean ====
section
/-! SUPPORT. The word range, wrapping and truncating division (spec/00_scope.md R4, 42_arithmetic.md R108). -/

namespace Sys2Proof.Machine

/-- A word of at least one bit has a value of two to that width. -/
theorem two_pow_xlen {xlen : Nat} (h : 1 ≤ xlen) : 2 ^ xlen = 2 * 2 ^ (xlen - 1) := by
  obtain ⟨n, rfl⟩ := Nat.exists_eq_add_of_le h
  simp [Nat.pow_add]

theorem minWord_le_zero (xlen : Nat) : minWord xlen ≤ 0 := by
  simp [minWord]

theorem zero_le_maxWord (xlen : Nat) : 0 ≤ maxWord xlen := by
  have := Nat.one_le_two_pow (n := xlen - 1)
  unfold maxWord
  omega

/-- `MIN = -MAX - 1` (00_scope.md R4). -/
theorem minWord_eq (xlen : Nat) : minWord xlen = -maxWord xlen - 1 := by
  simp [minWord, maxWord]

theorem inRange_zero (xlen : Nat) : InRange xlen 0 := ⟨minWord_le_zero xlen, zero_le_maxWord xlen⟩

/-- `wrap` leaves a word alone. -/
theorem wrap_of_inRange {xlen : Nat} {z : Int} (hx : 1 ≤ xlen) (h : InRange xlen z) : wrap xlen z = z := by
  have h2 := two_pow_xlen hx
  obtain ⟨h0, h1⟩ := h
  simp only [minWord, maxWord] at h0 h1
  refine Int.bmod_eq_of_le ?_ ?_ <;> omega

/-- `wrap` gives a word. -/
theorem inRange_wrap {xlen : Nat} (hx : 1 ≤ xlen) (z : Int) : InRange xlen (wrap xlen z) := by
  have h2 := two_pow_xlen hx
  have hpos : 0 < 2 ^ xlen := Nat.two_pow_pos xlen
  have h0 := Int.le_bmod (x := z) hpos
  have h1 := Int.bmod_lt (x := z) hpos
  refine ⟨?_, ?_⟩ <;> simp only [minWord, maxWord, wrap] <;> omega

/-- `wrap` is congruent to its argument modulo `2^XLEN`. -/
theorem dvd_sub_wrap (xlen : Nat) (z : Int) : ((2 ^ xlen : Nat) : Int) ∣ z - wrap xlen z :=
  Int.dvd_self_sub_bmod

/-- The quotient of the spec's formula is the integers' truncating quotient (42_arithmetic.md R108). -/
theorem tdiv_eq (a b : Int) : tdiv a b = Int.tdiv a b := by
  rw [← Int.sign_mul_natAbs (Int.tdiv a b), Int.natAbs_tdiv, Int.sign_tdiv, tdiv]
  split_ifs with h
  · rw [Nat.div_eq_of_lt h]
    simp
  · rfl

end Sys2Proof.Machine
end

