-- ==== Sys2Proof/Laws/Decode.lean ====
section
/-! SUPPORT. The lemmas of the decoder, the fetch and the table's bits (spec/30_encoding.md). -/

namespace Sys2Proof

/-- The list of mnemonics has them all. -/
theorem Mnemonic.mem_all (m : Mnemonic) : m ∈ Mnemonic.all := by cases m <;> decide

/-- A well-formed opcode map is injective (00_scope.md R3). -/
theorem OpcodeMap.word_injective {xlen : Nat} {o : OpcodeMap} (h : o.WellFormed xlen) {m n : Mnemonic}
    (he : o.word m = o.word n) : m = n :=
  List.inj_on_of_nodup_map h.1 (Mnemonic.mem_all m) (Mnemonic.mem_all n) he

/-- A recognised word is the mnemonic's value. -/
theorem word_of_recognise {o : OpcodeMap} {w : Word} {m : Mnemonic} (h : recognise o w = some m) :
    w = o.word m := by
  have := List.find?_some h
  exact (by simpa using this : o.word m = w).symm

/-- The value of a mnemonic is recognised as that mnemonic. -/
theorem recognise_word {xlen : Nat} {o : OpcodeMap} (h : o.WellFormed xlen) (m : Mnemonic) :
    recognise o (o.word m) = some m := by
  cases hr : recognise o (o.word m) with
  | none =>
    have := List.find?_eq_none.mp hr m (Mnemonic.mem_all m)
    simp at this
  | some n => rw [OpcodeMap.word_injective h (word_of_recognise hr)]

/-- Assembling the row of an instruction with its immediate gives the instruction back. -/
theorem assemble_mnemonic (i : Instr) (d : Word) : assemble i.mnemonic (i.immediate.getD d) = i := by
  cases i <;> rfl

/-- The row of an assembled instruction. -/
@[simp] theorem mnemonic_assemble (m : Mnemonic) (imm : Word) : (assemble m imm).mnemonic = m := by
  cases m <;> rfl

/-- An instruction has an immediate exactly when its format is `OP_IMM`. -/
theorem immediate_assemble (m : Mnemonic) (imm : Word) :
    (assemble m imm).immediate = match m.format with
      | .op => none
      | .opImm => some imm := by
  cases m <;> rfl

/-- The bits of a word, read as a word, are that word. -/
theorem wordOfBits_bitsOfWord {xlen : Nat} (hx : 1 ≤ xlen) {v : Int} (h : InRange xlen v) (k : Nat) :
    wordOfBits xlen (bitsOfWord xlen v + 2 ^ xlen * k) = v := by
  have h2 : 2 ^ xlen = 2 * 2 ^ (xlen - 1) := by
    obtain ⟨n, rfl⟩ := Nat.exists_eq_add_of_le hx
    simp [Nat.pow_add]
  have hpos : 0 < 2 ^ (xlen - 1) := Nat.two_pow_pos _
  obtain ⟨h0, h1⟩ := h
  simp only [minWord, maxWord] at h0 h1
  simp only [wordOfBits, bitsOfWord, h2]
  generalize 2 ^ (xlen - 1) = half at *
  have he : v % ((2 * half : Nat) : Int) = v ∧ 0 ≤ v ∨
      v % ((2 * half : Nat) : Int) = v + ((2 * half : Nat) : Int) ∧ v < 0 := by
    rcases lt_or_ge v (0 : Int) with hn | hn
    · refine .inr ⟨?_, hn⟩
      rw [← Int.add_emod_right]
      exact Int.emod_eq_of_lt (by omega) (by omega)
    · exact .inl ⟨Int.emod_eq_of_lt hn (by omega), hn⟩
  generalize v % ((2 * half : Nat) : Int) = e at *
  have hlt : e.toNat < 2 * half := by omega
  rw [Nat.add_mul_mod_self_left, Nat.mod_eq_of_lt hlt]
  unfold Word
  split <;> omega

namespace Machine

/-- A slot can be read exactly where its index is in the stream (20_memory.md R41). -/
theorem memRead_eq_none_iff (c : Configuration) (a : Word) :
    memRead c a = none ↔ a < 0 ∨ (c.prog.length : Int) ≤ a := by
  unfold memRead
  split
  · rw [List.getElem?_eq_none_iff]
    unfold Word at *
    omega
  · have : a < 0 := not_le.mp ‹_›
    simp [this]

theorem lt_of_memRead {c : Configuration} {a w : Word} (h : memRead c a = some w) :
    0 ≤ a ∧ a < (c.prog.length : Int) ∧ w ∈ c.prog := by
  have hn : memRead c a ≠ none := by simp [h]
  rw [Ne, memRead_eq_none_iff] at hn
  unfold memRead at h
  split at h
  · exact ⟨by assumption, by unfold Word at *; omega, List.mem_of_getElem? h⟩
  · cases h

/-- A fetch reads the slot at `ip` and moves on, or raises with the state as it was (30_encoding.md R61). -/
theorem fetch_cases (s : State) :
    (∃ w, memRead s.cfg s.ip = some w ∧ fetch s = .ok w (s.advance 1)) ∨
    ((s.ip < 0 ∨ (s.cfg.prog.length : Int) ≤ s.ip) ∧ fetch s = .raised .fetchFault s) := by
  cases h : memRead s.cfg s.ip with
  | none => exact .inr ⟨(memRead_eq_none_iff _ _).mp h, by simp [fetch, h]⟩
  | some w => exact .inl ⟨w, rfl, by simp [fetch, h]⟩

/-- What the fetches of a step can give: an instruction all of whose slots are in the stream, a word that is no
opcode, or a FetchFault at the opcode slot or at the immediate slot (30_encoding.md R61 to R63, R70). -/
theorem fetchInstr_cases (s : State) :
    (∃ w m, memRead s.cfg s.ip = some w ∧ recognise s.cfg.opc w = some m ∧ m.format = .op ∧
      fetchInstr s = .instr (assemble m 0)) ∨
    (∃ w m imm, memRead s.cfg s.ip = some w ∧ recognise s.cfg.opc w = some m ∧ m.format = .opImm ∧
      memRead s.cfg (s.ip + 1) = some imm ∧ fetchInstr s = .instr (assemble m imm)) ∨
    (∃ w, memRead s.cfg s.ip = some w ∧ recognise s.cfg.opc w = none ∧ fetchInstr s = .invalid w) ∨
    ((s.ip < 0 ∨ (s.cfg.prog.length : Int) ≤ s.ip) ∧ fetchInstr s = .raised .fetchFault s) ∨
    (∃ w m, memRead s.cfg s.ip = some w ∧ recognise s.cfg.opc w = some m ∧ m.format = .opImm ∧
      s.ip + 1 = s.cfg.prog.length ∧ fetchInstr s = .raised .fetchFault (s.advance 1)) := by
  unfold fetchInstr
  rcases fetch_cases s with ⟨w, hw, hf⟩ | ⟨hr, hf⟩
  · rw [hf]
    cases hm : recognise s.cfg.opc w with
    | none => exact .inr (.inr (.inl ⟨w, hw, hm, by simp [hm]⟩))
    | some m =>
      cases hfmt : m.format with
      | op => exact .inl ⟨w, m, hw, hm, hfmt, by simp [hm, hfmt]⟩
      | opImm =>
        rcases fetch_cases (s.advance 1) with ⟨imm, hi, hf1⟩ | ⟨hr1, hf1⟩
        · exact .inr (.inl ⟨w, m, imm, hw, hm, hfmt, hi, by simp [hm, hfmt, hf1]⟩)
        · refine .inr (.inr (.inr (.inr ⟨w, m, hw, hm, hfmt, ?_, by simp [hm, hfmt, hf1]⟩)))
          have h := lt_of_memRead hw
          simp only [State.advance] at hr1
          unfold Word at *
          omega
  · exact .inr (.inr (.inr (.inl ⟨hr, by rw [hf]⟩)))

end Machine

end Sys2Proof
end

