-- ==== Sys2Proof/Laws/State.lean ====
section
/-! SUPPORT. One lemma for each field of each update of the state, so that no later proof unfolds a record
update. -/

namespace Sys2Proof.Machine

variable (s : State)

/-! ### setIp -/

@[simp] theorem State.setIp_cfg (v : Word) : (s.setIp v).cfg = s.cfg := rfl
@[simp] theorem State.setIp_ip (v : Word) : (s.setIp v).ip = v := rfl
@[simp] theorem State.setIp_os (v : Word) : (s.setIp v).os = s.os := rfl
@[simp] theorem State.setIp_fs (v : Word) : (s.setIp v).fs = s.fs := rfl
@[simp] theorem State.setIp_rs (v : Word) : (s.setIp v).rs = s.rs := rfl
@[simp] theorem State.setIp_fk (v : Word) : (s.setIp v).fk = s.fk := rfl
@[simp] theorem State.setIp_fsel (v : Word) : (s.setIp v).fsel = s.fsel := rfl
@[simp] theorem State.setIp_fip (v : Word) : (s.setIp v).fip = s.fip := rfl
@[simp] theorem State.setIp_trace (v : Word) : (s.setIp v).trace = s.trace := rfl

/-! ### advance -/

@[simp] theorem State.advance_cfg (n : Nat) : (s.advance n).cfg = s.cfg := rfl
@[simp] theorem State.advance_ip (n : Nat) : (s.advance n).ip = s.ip + n := rfl
@[simp] theorem State.advance_os (n : Nat) : (s.advance n).os = s.os := rfl
@[simp] theorem State.advance_fs (n : Nat) : (s.advance n).fs = s.fs := rfl
@[simp] theorem State.advance_rs (n : Nat) : (s.advance n).rs = s.rs := rfl
@[simp] theorem State.advance_fk (n : Nat) : (s.advance n).fk = s.fk := rfl
@[simp] theorem State.advance_fsel (n : Nat) : (s.advance n).fsel = s.fsel := rfl
@[simp] theorem State.advance_fip (n : Nat) : (s.advance n).fip = s.fip := rfl
@[simp] theorem State.advance_trace (n : Nat) : (s.advance n).trace = s.trace := rfl

/-! ### setOs -/

@[simp] theorem State.setOs_cfg (l : List Word) : (s.setOs l).cfg = s.cfg := rfl
@[simp] theorem State.setOs_ip (l : List Word) : (s.setOs l).ip = s.ip := rfl
@[simp] theorem State.setOs_os (l : List Word) : (s.setOs l).os = l := rfl
@[simp] theorem State.setOs_fs (l : List Word) : (s.setOs l).fs = s.fs := rfl
@[simp] theorem State.setOs_rs (l : List Word) : (s.setOs l).rs = s.rs := rfl
@[simp] theorem State.setOs_fk (l : List Word) : (s.setOs l).fk = s.fk := rfl
@[simp] theorem State.setOs_fsel (l : List Word) : (s.setOs l).fsel = s.fsel := rfl
@[simp] theorem State.setOs_fip (l : List Word) : (s.setOs l).fip = s.fip := rfl
@[simp] theorem State.setOs_trace (l : List Word) : (s.setOs l).trace = s.trace := rfl

/-! ### setFs -/

@[simp] theorem State.setFs_cfg (l : List Frame) : (s.setFs l).cfg = s.cfg := rfl
@[simp] theorem State.setFs_ip (l : List Frame) : (s.setFs l).ip = s.ip := rfl
@[simp] theorem State.setFs_os (l : List Frame) : (s.setFs l).os = s.os := rfl
@[simp] theorem State.setFs_fs (l : List Frame) : (s.setFs l).fs = l := rfl
@[simp] theorem State.setFs_rs (l : List Frame) : (s.setFs l).rs = s.rs := rfl
@[simp] theorem State.setFs_fk (l : List Frame) : (s.setFs l).fk = s.fk := rfl
@[simp] theorem State.setFs_fsel (l : List Frame) : (s.setFs l).fsel = s.fsel := rfl
@[simp] theorem State.setFs_fip (l : List Frame) : (s.setFs l).fip = s.fip := rfl
@[simp] theorem State.setFs_trace (l : List Frame) : (s.setFs l).trace = s.trace := rfl

/-! ### setRs -/

@[simp] theorem State.setRs_cfg (r : RunState) : (s.setRs r).cfg = s.cfg := rfl
@[simp] theorem State.setRs_ip (r : RunState) : (s.setRs r).ip = s.ip := rfl
@[simp] theorem State.setRs_os (r : RunState) : (s.setRs r).os = s.os := rfl
@[simp] theorem State.setRs_fs (r : RunState) : (s.setRs r).fs = s.fs := rfl
@[simp] theorem State.setRs_rs (r : RunState) : (s.setRs r).rs = r := rfl
@[simp] theorem State.setRs_fk (r : RunState) : (s.setRs r).fk = s.fk := rfl
@[simp] theorem State.setRs_fsel (r : RunState) : (s.setRs r).fsel = s.fsel := rfl
@[simp] theorem State.setRs_fip (r : RunState) : (s.setRs r).fip = s.fip := rfl
@[simp] theorem State.setRs_trace (r : RunState) : (s.setRs r).trace = s.trace := rfl

/-! ### emit -/

@[simp] theorem State.emit_cfg (k : TraceKind) (v : Word) : (s.emit k v).cfg = s.cfg := rfl
@[simp] theorem State.emit_ip (k : TraceKind) (v : Word) : (s.emit k v).ip = s.ip := rfl
@[simp] theorem State.emit_os (k : TraceKind) (v : Word) : (s.emit k v).os = s.os := rfl
@[simp] theorem State.emit_fs (k : TraceKind) (v : Word) : (s.emit k v).fs = s.fs := rfl
@[simp] theorem State.emit_rs (k : TraceKind) (v : Word) : (s.emit k v).rs = s.rs := rfl
@[simp] theorem State.emit_fk (k : TraceKind) (v : Word) : (s.emit k v).fk = s.fk := rfl
@[simp] theorem State.emit_fsel (k : TraceKind) (v : Word) : (s.emit k v).fsel = s.fsel := rfl
@[simp] theorem State.emit_fip (k : TraceKind) (v : Word) : (s.emit k v).fip = s.fip := rfl
@[simp] theorem State.emit_trace (k : TraceKind) (v : Word) : (s.emit k v).trace = s.trace ++ [⟨k, v⟩] := rfl

/-! ### setTopFrame -/

@[simp] theorem State.setTopFrame_cfg (f : Frame) : (s.setTopFrame f).cfg = s.cfg := rfl
@[simp] theorem State.setTopFrame_ip (f : Frame) : (s.setTopFrame f).ip = s.ip := rfl
@[simp] theorem State.setTopFrame_os (f : Frame) : (s.setTopFrame f).os = s.os := rfl
@[simp] theorem State.setTopFrame_fs (f : Frame) : (s.setTopFrame f).fs = f :: s.fs.tail := rfl
@[simp] theorem State.setTopFrame_rs (f : Frame) : (s.setTopFrame f).rs = s.rs := rfl
@[simp] theorem State.setTopFrame_fk (f : Frame) : (s.setTopFrame f).fk = s.fk := rfl
@[simp] theorem State.setTopFrame_fsel (f : Frame) : (s.setTopFrame f).fsel = s.fsel := rfl
@[simp] theorem State.setTopFrame_fip (f : Frame) : (s.setTopFrame f).fip = s.fip := rfl
@[simp] theorem State.setTopFrame_trace (f : Frame) : (s.setTopFrame f).trace = s.trace := rfl

/-! ### Fault entry -/

@[simp] theorem raiseFault_cfg (c : Cause) (cur : Word) : (raiseFault c cur s).cfg = s.cfg := rfl
@[simp] theorem raiseFault_ip (c : Cause) (cur : Word) : (raiseFault c cur s).ip = s.ip := rfl
@[simp] theorem raiseFault_os (c : Cause) (cur : Word) : (raiseFault c cur s).os = s.os := rfl
@[simp] theorem raiseFault_fs (c : Cause) (cur : Word) : (raiseFault c cur s).fs = s.fs := rfl
@[simp] theorem raiseFault_rs (c : Cause) (cur : Word) : (raiseFault c cur s).rs = .faulted := rfl
@[simp] theorem raiseFault_fk (c : Cause) (cur : Word) : (raiseFault c cur s).fk = c.kind := rfl
@[simp] theorem raiseFault_fsel (c : Cause) (cur : Word) : (raiseFault c cur s).fsel = c.sel := rfl
@[simp] theorem raiseFault_fip (c : Cause) (cur : Word) : (raiseFault c cur s).fip = cur := rfl
@[simp] theorem raiseFault_trace (c : Cause) (cur : Word) : (raiseFault c cur s).trace = s.trace := rfl

/-! ### Reset -/

section Latch

variable (c : Configuration) (r : ResetInputs)

@[simp] theorem Configuration.latch_xlen : (Configuration.latch c r).xlen = c.xlen := rfl
@[simp] theorem Configuration.latch_opc : (Configuration.latch c r).opc = c.opc := rfl
@[simp] theorem Configuration.latch_policy : (Configuration.latch c r).policy = c.policy := rfl
@[simp] theorem Configuration.latch_texts : (Configuration.latch c r).texts = c.texts := rfl
@[simp] theorem Configuration.latch_prog : (Configuration.latch c r).prog = r.prog := rfl
@[simp] theorem Configuration.latch_stackCap : (Configuration.latch c r).stackCap = r.stackCap := rfl
@[simp] theorem Configuration.latch_frameCap : (Configuration.latch c r).frameCap = r.frameCap := rfl

end Latch

@[simp] theorem State.resetWith_cfg (c : Configuration) : (State.resetWith c).cfg = c := rfl
@[simp] theorem State.resetWith_ip (c : Configuration) : (State.resetWith c).ip = 0 := rfl
@[simp] theorem State.resetWith_os (c : Configuration) : (State.resetWith c).os = [] := rfl
@[simp] theorem State.resetWith_fs (c : Configuration) : (State.resetWith c).fs = [] := rfl
@[simp] theorem State.resetWith_rs (c : Configuration) : (State.resetWith c).rs = .ready := rfl
@[simp] theorem State.resetWith_fk (c : Configuration) : (State.resetWith c).fk = .none := rfl
@[simp] theorem State.resetWith_fsel (c : Configuration) : (State.resetWith c).fsel = 0 := rfl
@[simp] theorem State.resetWith_fip (c : Configuration) : (State.resetWith c).fip = 0 := rfl
@[simp] theorem State.resetWith_trace (c : Configuration) : (State.resetWith c).trace = [] := rfl

end Sys2Proof.Machine
end

