-- ==== Sys2Proof/Laws/Memory.lean ====
section
/-! SUPPORT. The laws of the variable store (spec/10_state.md R21, R22): every operation keeps the canonical form,
a read after a write of the same cell gives the value written, and a write leaves every other cell alone. -/

namespace Sys2Proof.Machine

/-- A store with nothing listed has the canonical form. -/
theorem Memory.wf_nil : Memory.wf [] := ⟨List.Pairwise.nil, by simp⟩

theorem Memory.wf_tail {p : Word × Word} {m : Memory} (h : Memory.wf (p :: m)) : Memory.wf m :=
  ⟨(List.pairwise_cons.mp h.1).2, fun q hq => h.2 q (List.mem_cons_of_mem _ hq)⟩

/-- In canonical form the first cell's id is below every other listed id. -/
theorem Memory.head_lt {k x : Word} {m : Memory} (h : Memory.wf ((k, x) :: m)) : ∀ p ∈ m, k < p.1 :=
  (List.pairwise_cons.mp h.1).1

/-- A cell whose id is below every listed id reads 0. -/
theorem Memory.read_eq_zero_of_lt {m : Memory} {id : Word} (h : ∀ p ∈ m, id < p.1) : Memory.read m id = 0 := by
  induction m with
  | nil => rfl
  | cons p m ih =>
    have hp := h p (List.mem_cons_self ..)
    have ht := ih fun q hq => h q (List.mem_cons_of_mem _ hq)
    simp only [Memory.read, ht]
    rw [if_neg hp.ne']

/-- Every cell of a written store is the written one or was there before. -/
theorem Memory.mem_write {m : Memory} {id v : Word} {p : Word × Word} (hp : p ∈ Memory.write m id v) :
    p = (id, v) ∨ p ∈ m := by
  induction m with
  | nil =>
    simp only [Memory.write] at hp
    split at hp <;> simp_all
  | cons q m ih =>
    obtain ⟨k, x⟩ := q
    simp only [Memory.write] at hp
    split_ifs at hp <;> simp only [List.mem_cons] at hp ⊢ <;> tauto

/-- A write keeps the canonical form. -/
theorem Memory.wf_write {m : Memory} (h : Memory.wf m) (id v : Word) : Memory.wf (Memory.write m id v) := by
  induction m with
  | nil =>
    simp only [Memory.write]
    split_ifs with hv
    · exact h
    · exact ⟨by simp, by simpa using hv⟩
  | cons q m ih =>
    obtain ⟨k, x⟩ := q
    have hm := Memory.wf_tail h
    have hlt := Memory.head_lt h
    have hx : x ≠ 0 := h.2 (k, x) (List.mem_cons_self ..)
    have hw := ih hm
    simp only [Memory.write]
    split_ifs with h1 h2 h3 h4
    · exact h
    · refine ⟨List.pairwise_cons.mpr ⟨?_, h.1⟩, ?_⟩
      · intro p hp
        rcases List.mem_cons.mp hp with rfl | hp
        · exact h1
        · exact lt_trans h1 (hlt p hp)
      · intro p hp
        rcases List.mem_cons.mp hp with rfl | hp
        · exact h2
        · exact h.2 p hp
    · exact hm
    · refine ⟨List.pairwise_cons.mpr ⟨fun p hp => h3 ▸ hlt p hp, hm.1⟩, ?_⟩
      intro p hp
      rcases List.mem_cons.mp hp with rfl | hp
      · exact h4
      · exact hm.2 p hp
    · refine ⟨List.pairwise_cons.mpr ⟨?_, hw.1⟩, ?_⟩
      · intro p hp
        rcases Memory.mem_write hp with rfl | hp
        · exact lt_of_le_of_ne (not_lt.mp h1) (Ne.symm h3)
        · exact hlt p hp
      · intro p hp
        rcases List.mem_cons.mp hp with rfl | hp
        · exact hx
        · exact hw.2 p hp

/-- A read of the cell just written gives the value written (10_state.md R22). -/
theorem Memory.read_write_same {m : Memory} (h : Memory.wf m) (id v : Word) :
    Memory.read (Memory.write m id v) id = v := by
  induction m with
  | nil =>
    simp only [Memory.write]
    split <;> simp_all [Memory.read]
  | cons q m ih =>
    obtain ⟨k, x⟩ := q
    have hlt := Memory.head_lt h
    have hw := ih (Memory.wf_tail h)
    simp only [Memory.write]
    split_ifs with h1 h2 h3 h4
    · rw [h2]
      exact Memory.read_eq_zero_of_lt (by
        intro p hp
        rcases List.mem_cons.mp hp with rfl | hp
        · exact h1
        · exact lt_trans h1 (hlt p hp))
    · simp [Memory.read]
    · rw [h4]
      exact Memory.read_eq_zero_of_lt (h3 ▸ hlt)
    · simp [Memory.read]
    · simp [Memory.read, Ne.symm h3, hw]

/-- A write leaves every other cell alone (10_state.md R22). -/
theorem Memory.read_write_other {m : Memory} {id other : Word} (v : Word) (ho : other ≠ id) :
    Memory.read (Memory.write m id v) other = Memory.read m other := by
  induction m with
  | nil =>
    simp only [Memory.write]
    split <;> simp [Memory.read, Ne.symm ho]
  | cons q m ih =>
    obtain ⟨k, x⟩ := q
    simp only [Memory.write]
    split_ifs with h1 h2 h3 h4
    · rfl
    · simp [Memory.read, Ne.symm ho]
    · subst h3
      simp [Memory.read, Ne.symm ho]
    · subst h3
      simp [Memory.read, Ne.symm ho]
    · simp only [Memory.read, ih]

/-- Two canonical stores that read the same everywhere are the same list: equal stores are equal data. -/
theorem Memory.ext_of_read {m m' : Memory} (h : Memory.wf m) (h' : Memory.wf m')
    (he : ∀ id, Memory.read m id = Memory.read m' id) : m = m' := by
  induction m generalizing m' with
  | nil =>
    cases m' with
    | nil => rfl
    | cons q m' =>
      have := he q.1
      simp only [Memory.read, ↓reduceIte] at this
      exact absurd this.symm (h'.2 q (List.mem_cons_self ..))
  | cons p m ih =>
    obtain ⟨k, x⟩ := p
    have hx : x ≠ 0 := h.2 (k, x) (List.mem_cons_self ..)
    cases m' with
    | nil =>
      have := he k
      simp only [Memory.read, ↓reduceIte] at this
      exact absurd this hx
    | cons q m' =>
      obtain ⟨k', x'⟩ := q
      have hx' : x' ≠ 0 := h'.2 (k', x') (List.mem_cons_self ..)
      have hz : ∀ {n : Memory} {a b y : Word}, Memory.wf ((b, y) :: n) → a < b →
          Memory.read ((b, y) :: n) a = 0 := fun hn hab =>
        Memory.read_eq_zero_of_lt (by
          intro p hp
          rcases List.mem_cons.mp hp with rfl | hp
          · exact hab
          · exact lt_trans hab (Memory.head_lt hn p hp))
      have hk : k = k' := by
        rcases lt_trichotomy k k' with hlt | heq | hgt
        · have := he k
          rw [hz h' hlt] at this
          simp only [Memory.read, ↓reduceIte] at this
          exact absurd this hx
        · exact heq
        · have := he k'
          rw [hz h hgt] at this
          simp only [Memory.read, ↓reduceIte] at this
          exact absurd this.symm hx'
      subst hk
      have hxx : x = x' := by simpa [Memory.read] using he k
      subst hxx
      congr 1
      refine ih (Memory.wf_tail h) (Memory.wf_tail h') fun id => ?_
      by_cases hid : k = id
      · subst hid
        rw [Memory.read_eq_zero_of_lt (Memory.head_lt h), Memory.read_eq_zero_of_lt (Memory.head_lt h')]
      · simpa [Memory.read, hid] using he id

/-- A frame with a cell written keeps its return address (10_state.md R20). -/
@[simp] theorem varWrite_ra (f : Frame) (id v : Word) : (varWrite f id v).ra = f.ra := rfl

@[simp] theorem varWrite_vars (f : Frame) (id v : Word) : (varWrite f id v).vars = Memory.write f.vars id v := rfl

@[simp] theorem Frame.initial_ra : Frame.initial.ra = 0 := rfl

@[simp] theorem Frame.initial_vars : Frame.initial.vars = [] := rfl

end Sys2Proof.Machine
end

