-- ==== Sys2Proof/Laws/Ops.lean ====
section
/-! SUPPORT. What each shared operation can do, said once: provers cite these and do not unfold the operations. -/

namespace Sys2Proof.Machine

/-! ## Sequencing -/

@[simp] theorem Res.ok_andThen {α β : Type} (a : α) (s : State) (k : α → State → Res β) :
    (Res.ok a s).andThen k = k a s := rfl

@[simp] theorem Res.raised_andThen {α β : Type} (c : Cause) (s : State) (k : α → State → Res β) :
    (Res.raised c s : Res α).andThen k = .raised c s := rfl

/-- A sequence raises where its first or its second part does. -/
theorem Res.andThen_eq_raised {α β : Type} {r : Res α} {k : α → State → Res β} {c : Cause} {s : State} :
    r.andThen k = .raised c s ↔ r = .raised c s ∨ ∃ a s1, r = .ok a s1 ∧ k a s1 = .raised c s := by
  cases r <;> simp

/-- A sequence answers a value where both parts do. -/
theorem Res.andThen_eq_ok {α β : Type} {r : Res α} {k : α → State → Res β} {b : β} {s : State} :
    r.andThen k = .ok b s ↔ ∃ a s1, r = .ok a s1 ∧ k a s1 = .ok b s := by
  cases r <;> simp

@[simp] theorem conclude_ok (cur : Word) (u : Unit) (s : State) : conclude cur (.ok u s) = .next s := rfl

@[simp] theorem conclude_raised (cur : Word) (c : Cause) (s : State) :
    conclude cur (.raised c s) = .next (raiseFault c cur s) := rfl

/-- The end of an instruction is always a next state: its own, or that of fault entry. -/
theorem conclude_eq_next {cur : Word} {r : Res Unit} {t : State} (h : conclude cur r = .next t) :
    r = .ok () t ∨ ∃ c s, r = .raised c s ∧ t = raiseFault c cur s := by
  cases r with
  | ok u s => exact .inl (by simpa using h)
  | raised c s => exact .inr ⟨c, s, rfl, by simpa using h.symm⟩

theorem conclude_completes (cur : Word) (r : Res Unit) : ∃ t, conclude cur r = .next t := by
  cases r with
  | ok u s => exact ⟨s, rfl⟩
  | raised c s => exact ⟨_, rfl⟩

/-! ## The operand stack -/

theorem osPush_of_lt {v : Word} {s : State} (h : s.os.length < s.cfg.stackCap) :
    osPush v s = .ok () (s.setOs (v :: s.os)) := by
  simp [osPush, BoundedStack.push, Nat.not_le.mpr h]

theorem osPush_of_le {v : Word} {s : State} (h : s.cfg.stackCap ≤ s.os.length) :
    osPush v s = .raised (.stackOverflow .operand) s := by
  simp [osPush, BoundedStack.push, h]

/-- A push puts its word on top where there is room, and else overflows with the state as it was. -/
theorem osPush_cases (v : Word) (s : State) :
    (s.os.length < s.cfg.stackCap ∧ osPush v s = .ok () (s.setOs (v :: s.os))) ∨
    (s.cfg.stackCap ≤ s.os.length ∧ osPush v s = .raised (.stackOverflow .operand) s) := by
  rcases Nat.lt_or_ge s.os.length s.cfg.stackCap with h | h
  · exact .inl ⟨h, osPush_of_lt h⟩
  · exact .inr ⟨h, osPush_of_le h⟩

theorem osPop_nil {s : State} (h : s.os = []) : osPop s = .raised (.stackUnderflow .operand) s := by
  simp [osPop, BoundedStack.pop, h]

theorem osPop_cons {s : State} {v : Word} {rest : List Word} (h : s.os = v :: rest) :
    osPop s = .ok v (s.setOs rest) := by
  simp [osPop, BoundedStack.pop, h]

/-- A pop removes the top where there is one, and else underflows with the state as it was. -/
theorem osPop_cases (s : State) :
    (∃ v rest, s.os = v :: rest ∧ osPop s = .ok v (s.setOs rest)) ∨
    (s.os = [] ∧ osPop s = .raised (.stackUnderflow .operand) s) := by
  rcases h : s.os with _ | ⟨v, rest⟩
  · exact .inr ⟨rfl, osPop_nil h⟩
  · exact .inl ⟨v, rest, rfl, osPop_cons h⟩

theorem osPeek_nil {s : State} (h : s.os = []) : osPeek s = .raised (.stackUnderflow .operand) s := by
  simp [osPeek, BoundedStack.peek, h]

theorem osPeek_cons {s : State} {v : Word} {rest : List Word} (h : s.os = v :: rest) :
    osPeek s = .ok v s := by
  simp [osPeek, BoundedStack.peek, h]

theorem osPeek_cases (s : State) :
    (∃ v rest, s.os = v :: rest ∧ osPeek s = .ok v s) ∨
    (s.os = [] ∧ osPeek s = .raised (.stackUnderflow .operand) s) := by
  rcases h : s.os with _ | ⟨v, rest⟩
  · exact .inr ⟨rfl, osPeek_nil h⟩
  · exact .inl ⟨v, rest, rfl, osPeek_cons h⟩

/-! ## The frame stack -/

theorem fsPush_of_lt {f : Frame} {s : State} (h : s.fs.length < s.cfg.frameCap) :
    fsPush f s = .ok () (s.setFs (f :: s.fs)) := by
  simp [fsPush, BoundedStack.push, Nat.not_le.mpr h]

theorem fsPush_of_le {f : Frame} {s : State} (h : s.cfg.frameCap ≤ s.fs.length) :
    fsPush f s = .raised (.stackOverflow .frame) s := by
  simp [fsPush, BoundedStack.push, h]

theorem fsPop_nil {s : State} (h : s.fs = []) : fsPop s = .raised (.stackUnderflow .frame) s := by
  simp [fsPop, BoundedStack.pop, h]

theorem fsPop_cons {s : State} {f : Frame} {rest : List Frame} (h : s.fs = f :: rest) :
    fsPop s = .ok f (s.setFs rest) := by
  simp [fsPop, BoundedStack.pop, h]

theorem fsPeek_nil {s : State} (h : s.fs = []) : fsPeek s = .raised (.stackUnderflow .frame) s := by
  simp [fsPeek, BoundedStack.peek, h]

theorem fsPeek_cons {s : State} {f : Frame} {rest : List Frame} (h : s.fs = f :: rest) :
    fsPeek s = .ok f s := by
  simp [fsPeek, BoundedStack.peek, h]

theorem fsPeek_cases (s : State) :
    (∃ f rest, s.fs = f :: rest ∧ fsPeek s = .ok f s) ∨
    (s.fs = [] ∧ fsPeek s = .raised (.stackUnderflow .frame) s) := by
  rcases h : s.fs with _ | ⟨f, rest⟩
  · exact .inr ⟨rfl, fsPeek_nil h⟩
  · exact .inl ⟨f, rest, rfl, fsPeek_cons h⟩

/-! ## Two operands -/

theorem popTwo_nil {s : State} {k : Word → Word → State → Res Unit} (h : s.os = []) :
    popTwo s k = .raised (.stackUnderflow .operand) s := by
  simp [popTwo, osPop_nil h]

theorem popTwo_one {s : State} {k : Word → Word → State → Res Unit} {b : Word} (h : s.os = [b]) :
    popTwo s k = .raised (.stackUnderflow .operand) (s.setOs []) := by
  simp [popTwo, osPop_cons h, osPop_nil (s := s.setOs []) rfl]

theorem popTwo_cons {s : State} {k : Word → Word → State → Res Unit} {a b : Word} {rest : List Word}
    (h : s.os = b :: a :: rest) : popTwo s k = k a b (s.setOs rest) := by
  rw [popTwo, osPop_cons h, Res.ok_andThen, osPop_cons (s := s.setOs (a :: rest)) rfl]
  rfl

/-- Two pops give both operands where there are two elements; with one it is removed before the underflow. -/
theorem popTwo_cases (s : State) (k : Word → Word → State → Res Unit) :
    (∃ a b rest, s.os = b :: a :: rest ∧ popTwo s k = k a b (s.setOs rest)) ∨
    (s.os.length ≤ 1 ∧ popTwo s k = .raised (.stackUnderflow .operand) (s.setOs [])) := by
  rcases h : s.os with _ | ⟨b, _ | ⟨a, rest⟩⟩
  · refine .inr ⟨by simp, ?_⟩
    rw [popTwo_nil h]
    congr 1
    cases s
    simp_all [State.setOs]
  · exact .inr ⟨by simp, popTwo_one h⟩
  · exact .inl ⟨a, b, rest, rfl, popTwo_cons h⟩

/-! ## Reset -/

/-- What a reset event can do: the reset state of the latched configuration when that is in range, and else a
refusal (70_reset_and_hazards.md R170). -/
theorem resetEvent_cases (r : ResetInputs) (s : State) :
    ((Configuration.latch s.cfg r).WellFormed ∧
      resetEvent r s = .next (State.resetWith (Configuration.latch s.cfg r))) ∨
    (¬ (Configuration.latch s.cfg r).WellFormed ∧ resetEvent r s = .refused .configurationOutOfRange) := by
  by_cases h : (Configuration.latch s.cfg r).WellFormed
  · exact .inl ⟨h, if_pos h⟩
  · exact .inr ⟨h, if_neg h⟩

/-! ## Conditions -/

/-- The only outcomes of `asInt` are 0 and 1 (00_scope.md R5). -/
theorem asInt_zero_or_one (b : Bool) : asInt b = 0 ∨ asInt b = 1 := by
  cases b <;> simp [asInt]

theorem asBool_iff (x : Word) : asBool x = true ↔ x ≠ 0 := by simp [asBool]

end Sys2Proof.Machine
end

