-- ==== Sys2Proof/Laws/Exec.lean ====
section
/-! SUPPORT. Everything an instruction can do, said once (`exec_next_cases`): whole-machine statements follow from
it without unfolding a meaning. -/

namespace Sys2Proof.Machine

/-- The causes an instruction can raise in the state `s`: never a fetch or a comparison fault, a frame-stack fault
only by a peek without a frame, an arithmetic overflow only under the policy `fault`. -/
structure Cause.RaisedByInstr (c : Cause) (s : State) : Prop where
  not_unknown : c ≠ .unknownComparisonOperator
  not_fetch : c ≠ .fetchFault
  not_frameOverflow : c ≠ .stackOverflow .frame
  frameUnderflow : c = .stackUnderflow .frame → s.fs = []
  overflow : c = .arithmeticFault .overflow → s.cfg.policy = .fault

/-- The next state of an instruction that does not fault: what may change and how. -/
def CompletesTo (i : Instr) (s t : State) : Prop :=
  ∃ os' fs' ip' tr rs', t = { s with ip := ip', os := os', fs := fs', trace := s.trace ++ tr, rs := rs' } ∧
    s.os.drop (maxPops i) <:+ os' ∧ (i ≠ .jmp → i ≠ .jif → ip' = s.ip + i.slots) ∧
    ((i ≠ .halt ∧ rs' = s.rs) ∨ (i = .halt ∧ rs' = .halted)) ∧
    (i ≠ .nop → i ≠ .halt → i ≠ .printI → tr = []) ∧
    (fs' = s.fs ∨ ∃ id f frames v rest, i = .store id ∧ s.os = v :: rest ∧ os' = rest ∧ s.fs = f :: frames ∧
      fs' = varWrite f id v :: frames)

/-- The next state of an instruction that faults: fault entry, with `ip` past its slots and elements missing from
the top of the operand stack alone. -/
def FaultsTo (i : Instr) (s t : State) : Prop :=
  ∃ os' c, t = raiseFault c s.ip { s with ip := s.ip + i.slots, os := os' } ∧ os' <:+ s.os ∧
    s.os.drop (maxPops i) <:+ os' ∧ c.RaisedByInstr s

theorem faultsTo_of {i : Instr} {s : State} {n : Nat} {os' : List Word} {c : Cause} (hn : n = i.slots)
    (h1 : os' <:+ s.os) (h2 : s.os.drop (maxPops i) <:+ os') (hc : c.RaisedByInstr s) :
    FaultsTo i s (raiseFault c s.ip ((s.advance n).setOs os')) :=
  ⟨os', c, hn ▸ rfl, h1, h2, hc⟩

theorem completesTo_of {i : Instr} {s : State} {n : Nat} {os' : List Word} (hn : n = i.slots)
    (h : s.os.drop (maxPops i) <:+ os') (hh : i ≠ .halt) : CompletesTo i s ((s.advance n).setOs os') :=
  ⟨os', s.fs, s.ip + n, [], s.rs, by simp [State.advance, State.setOs], h, fun _ _ => by rw [hn],
    .inl ⟨hh, rfl⟩, fun _ _ _ => rfl, .inl rfl⟩

theorem operandFault (s : State) :
    (Cause.stackUnderflow .operand).RaisedByInstr s ∧ (Cause.stackOverflow .operand).RaisedByInstr s ∧
      (Cause.arithmeticFault .zeroDivisor).RaisedByInstr s := by
  refine ⟨⟨?_, ?_, ?_, ?_, ?_⟩, ⟨?_, ?_, ?_, ?_, ?_⟩, ⟨?_, ?_, ?_, ?_, ?_⟩⟩ <;> simp

theorem frameUnderflowFault {s : State} (h : s.fs = []) : (Cause.stackUnderflow .frame).RaisedByInstr s :=
  ⟨by simp, by simp, by simp, fun _ => h, by simp⟩

theorem overflowFault {s : State} (h : s.cfg.policy = .fault) :
    (Cause.arithmeticFault .overflow).RaisedByInstr s :=
  ⟨by simp, by simp, by simp, by simp, fun _ => h⟩

/-- An operation of the ALU raises `overflow` only under the policy `fault` (42_arithmetic.md R106, R109). -/
def OverflowOnlyByPolicy (op : Configuration → Word → Word → Except ArithmeticCause Word) : Prop :=
  ∀ c a b, op c a b = .error .overflow → c.policy = .fault

theorem narrow_overflow {c : Configuration} {z : Int} (h : narrow c z = .error .overflow) :
    c.policy = .fault := by
  unfold narrow at h
  split at h
  · exact (‹_ ∧ _›).2
  · cases h

theorem aluDiv_overflow : OverflowOnlyByPolicy aluDiv := by
  intro c a b h
  unfold aluDiv at h
  split_ifs at h with h1 h2
  · cases h
  · exact h2.2

theorem aluMod_overflow : OverflowOnlyByPolicy aluMod := by
  intro c a b h
  unfold aluMod at h
  split_ifs at h with h1 h2
  · cases h
  · exact h2.2.2

/-- What a binary operand form can do, for any continuation that answers or raises with `rest` or with a word on
it. -/
theorem popTwo_next_cases {i : Instr} {s t : State} {k : Word → Word → State → Res Unit} (hn : i.slots = 1)
    (hp : maxPops i = 2) (hh : i ≠ .halt)
    (hk : ∀ a b rest, s.os = b :: a :: rest →
      (∃ r, k a b ((s.advance 1).setOs rest) = .ok () ((s.advance 1).setOs (r :: rest))) ∨
      (∃ c : Cause, c.RaisedByInstr s ∧
        k a b ((s.advance 1).setOs rest) = .raised c ((s.advance 1).setOs rest)))
    (h : conclude s.ip (popTwo (s.advance 1) k) = .next t) : CompletesTo i s t ∨ FaultsTo i s t := by
  rcases popTwo_cases (s.advance 1) k with ⟨a, b, rest, hs, hpop⟩ | ⟨hl, hpop⟩ <;> rw [hpop] at h
  · rw [State.advance_os] at hs
    have hsuf : s.os.drop (maxPops i) <:+ rest := by simp [hp, hs]
    rcases hk a b rest hs with ⟨r, hr⟩ | ⟨c, hc, hr⟩ <;> rw [hr] at h <;> cases h
    · exact .inl (completesTo_of hn.symm (hsuf.trans (List.suffix_cons r rest)) hh)
    · refine .inr (faultsTo_of hn.symm ?_ hsuf hc)
      exact hs ▸ (List.suffix_cons a rest).trans (List.suffix_cons b _)
  · cases h
    rw [State.advance_os] at hl
    refine .inr (faultsTo_of hn.symm List.nil_suffix ?_ (operandFault s).1)
    rw [hp, List.drop_of_length_le (by omega)]

/-- A push on the rest of the operand stack answers with the word on it, or overflows. -/
theorem osPush_rest (v : Word) (s : State) (rest : List Word) :
    (∃ r, osPush v (s.setOs rest) = .ok () (s.setOs (r :: rest))) ∨
      osPush v (s.setOs rest) = .raised (.stackOverflow .operand) (s.setOs rest) := by
  rcases osPush_cases v (s.setOs rest) with ⟨_, h⟩ | ⟨_, h⟩
  · exact .inl ⟨v, h⟩
  · exact .inr h

theorem binaryArith_next_cases {i : Instr} {s t : State}
    {op : Configuration → Word → Word → Except ArithmeticCause Word} (hn : i.slots = 1) (hp : maxPops i = 2)
    (hh : i ≠ .halt) (hop : OverflowOnlyByPolicy op)
    (h : conclude s.ip (binaryArith op (s.advance 1)) = .next t) : CompletesTo i s t ∨ FaultsTo i s t := by
  refine popTwo_next_cases hn hp hh (fun a b rest _ => ?_) h
  simp only [State.setOs_cfg, State.advance_cfg]
  cases hr : op s.cfg a b with
  | ok r =>
    rcases osPush_rest r (s.advance 1) rest with h | h
    · exact .inl h
    · exact .inr ⟨_, (operandFault s).2.1, h⟩
  | error e =>
    refine .inr ⟨.arithmeticFault e, ?_, rfl⟩
    cases e with
    | zeroDivisor => exact (operandFault s).2.2
    | overflow => exact overflowFault (hop _ _ _ hr)

theorem pushResult_next_cases {i : Instr} {s t : State} {f : Word → Word → Word} (hn : i.slots = 1)
    (hp : maxPops i = 2) (hh : i ≠ .halt)
    (h : conclude s.ip (popTwo (s.advance 1) fun a b s2 => osPush (f a b) s2) = .next t) :
    CompletesTo i s t ∨ FaultsTo i s t := by
  refine popTwo_next_cases hn hp hh (fun a b rest _ => ?_) h
  rcases osPush_rest (f a b) (s.advance 1) rest with h | h
  · exact .inl h
  · exact .inr ⟨_, (operandFault s).2.1, h⟩

/-- The comparison of an opcode that has a relation pushes that relation's outcome. -/
theorem evalCompare_of_some {m : Mnemonic} {r : Relation} (h : relationSelect m = some r) (s : State) :
    evalCompare m s = popTwo s fun a b s2 => osPush (asInt (r.holds a b)) s2 := by
  unfold evalCompare
  rw [h]

/-- A meaning that pops one element and goes on: with an element, what the continuation does; without, an
underflow. -/
theorem popOne_next_cases {i : Instr} {s t : State} {n : Nat} {k : Word → State → Res Unit} (hn : n = i.slots)
    (hp : s.os = [] → s.os.drop (maxPops i) = [])
    (hk : ∀ v rest, s.os = v :: rest → conclude s.ip (k v ((s.advance n).setOs rest)) = .next t →
      CompletesTo i s t ∨ FaultsTo i s t)
    (h : conclude s.ip ((osPop (s.advance n)).andThen k) = .next t) : CompletesTo i s t ∨ FaultsTo i s t := by
  rcases osPop_cases (s.advance n) with ⟨v, rest, hs, hpop⟩ | ⟨hs, hpop⟩ <;> rw [hpop] at h
  · exact hk v rest hs h
  · cases h
    refine .inr (faultsTo_of (os' := s.os) hn List.suffix_rfl ?_ (operandFault s).1)
    rw [hp hs]
    exact List.nil_suffix

/-- A push that ends a meaning: it completes, or overflows with the state as it was. -/
theorem osPush_next_cases {i : Instr} {s t : State} {n : Nat} {v : Word} {l : List Word} (hn : n = i.slots)
    (hl : l <:+ s.os) (hs : s.os.drop (maxPops i) <:+ l) (hh : i ≠ .halt)
    (h : conclude s.ip (osPush v ((s.advance n).setOs l)) = .next t) : CompletesTo i s t ∨ FaultsTo i s t := by
  rcases osPush_rest v (s.advance n) l with ⟨r, hr⟩ | hr <;> rw [hr] at h <;> cases h
  · exact .inl (completesTo_of hn (hs.trans (List.suffix_cons r l)) hh)
  · exact .inr (faultsTo_of hn hl hs (operandFault s).2.1)

/-- Every next state of an instruction is one it completes to or one it faults to. -/
theorem exec_next_cases (i : Instr) (s t : State) (h : exec i s = .next t) : CompletesTo i s t ∨ FaultsTo i s t := by
  cases i with
  | nop =>
    cases h
    exact .inl ⟨s.os, s.fs, _, [⟨.nop, 0⟩], s.rs, rfl, by simp [maxPops], fun _ _ => rfl, by simp, by simp, .inl rfl⟩
  | halt =>
    cases h
    exact .inl ⟨s.os, s.fs, _, [⟨.halt, 0⟩], .halted, rfl, by simp [maxPops], fun _ _ => rfl, by simp, by simp,
      .inl rfl⟩
  | push v => exact osPush_next_cases (n := 2) (l := s.os) rfl List.suffix_rfl (by simp [maxPops]) (by simp) h
  | pop =>
    refine popOne_next_cases (n := 1) rfl (by simp +contextual) (fun v rest hs h => ?_) h
    cases h
    exact .inl (completesTo_of rfl (by simp [maxPops, hs]) (by simp))
  | dup =>
    simp only [exec, execDup] at h
    rcases osPeek_cases (s.advance 1) with ⟨v, rest, hs, hp⟩ | ⟨hs, hp⟩ <;> rw [hp] at h
    · exact osPush_next_cases (n := 1) (l := s.os) rfl List.suffix_rfl (by simp [maxPops]) (by simp) h
    · cases h
      exact .inr (faultsTo_of (os' := s.os) rfl List.suffix_rfl (by simp [maxPops]) (operandFault s).1)
  | load id =>
    simp only [exec, execLoad] at h
    rcases fsPeek_cases (s.advance 2) with ⟨f, rest, hs, hp⟩ | ⟨hs, hp⟩ <;> rw [hp] at h
    · exact osPush_next_cases (n := 2) (l := s.os) rfl List.suffix_rfl (by simp [maxPops]) (by simp) h
    · cases h
      exact .inr (faultsTo_of (os' := s.os) rfl List.suffix_rfl (by simp [maxPops]) (frameUnderflowFault hs))
  | store id =>
    refine popOne_next_cases (n := 2) rfl (by simp +contextual) (fun v rest hs h => ?_) h
    rcases fsPeek_cases ((s.advance 2).setOs rest) with ⟨f, frames, hfs, hp⟩ | ⟨hfs, hp⟩ <;> rw [hp] at h <;> cases h
    · rw [State.setOs_fs, State.advance_fs] at hfs
      refine .inl ⟨rest, varWrite f id v :: frames, s.ip + 2, [], s.rs, ?_, by simp [maxPops, hs], fun _ _ => rfl,
        by simp, by simp, .inr ⟨id, f, frames, v, rest, rfl, hs, rfl, hfs, rfl⟩⟩
      simp [State.setTopFrame, State.setFs, State.setOs, State.advance, hfs]
    · exact .inr (faultsTo_of rfl (hs ▸ List.suffix_cons v rest) (by simp [maxPops, hs]) (frameUnderflowFault hfs))
  | printI =>
    refine popOne_next_cases (n := 1) rfl (by simp +contextual) (fun v rest hs h => ?_) h
    cases h
    exact .inl ⟨rest, s.fs, s.ip + 1, [⟨.print, v⟩], s.rs, rfl, by simp [maxPops, hs], fun _ _ => rfl, by simp, by simp,
      .inl rfl⟩
  | add => exact binaryArith_next_cases rfl rfl (by simp) (fun _ _ _ => narrow_overflow) h
  | sub => exact binaryArith_next_cases rfl rfl (by simp) (fun _ _ _ => narrow_overflow) h
  | mul => exact binaryArith_next_cases rfl rfl (by simp) (fun _ _ _ => narrow_overflow) h
  | div => exact binaryArith_next_cases rfl rfl (by simp) aluDiv_overflow h
  | mod => exact binaryArith_next_cases rfl rfl (by simp) aluMod_overflow h
  | not =>
    refine popOne_next_cases (n := 1) rfl (by simp +contextual) (fun v rest hs h => ?_) h
    exact osPush_next_cases rfl (hs ▸ List.suffix_cons v rest) (by simp [maxPops, hs]) (by simp) h
  | and => exact pushResult_next_cases rfl rfl (by simp) h
  | or => exact pushResult_next_cases rfl rfl (by simp) h
  | cmpE => exact pushResult_next_cases (f := fun a b => asInt (Relation.e.holds a b)) rfl rfl (by simp) h
  | cmpNe => exact pushResult_next_cases (f := fun a b => asInt (Relation.ne.holds a b)) rfl rfl (by simp) h
  | cmpG => exact pushResult_next_cases (f := fun a b => asInt (Relation.g.holds a b)) rfl rfl (by simp) h
  | cmpGe => exact pushResult_next_cases (f := fun a b => asInt (Relation.ge.holds a b)) rfl rfl (by simp) h
  | cmpL => exact pushResult_next_cases (f := fun a b => asInt (Relation.l.holds a b)) rfl rfl (by simp) h
  | cmpLe => exact pushResult_next_cases (f := fun a b => asInt (Relation.le.holds a b)) rfl rfl (by simp) h
  | jmp =>
    refine popOne_next_cases (n := 1) rfl (by simp +contextual) (fun v rest hs h => ?_) h
    cases h
    exact .inl ⟨rest, s.fs, v, [], s.rs, by simp [State.setIp, State.setOs, State.advance], by simp [maxPops, hs],
      by simp, by simp, by simp, .inl rfl⟩
  | jif =>
    refine popOne_next_cases (n := 1) rfl (by simp +contextual) (fun c rest hs h => ?_) h
    split at h
    · rcases osPop_cases ((s.advance 1).setOs rest) with ⟨v, rest2, hs2, hp⟩ | ⟨hs2, hp⟩ <;> rw [hp] at h <;> cases h <;>
        rw [State.setOs_os] at hs2
      · exact .inl ⟨rest2, s.fs, v, [], s.rs, by simp [State.setIp, State.setOs, State.advance],
          by simp [maxPops, hs, hs2], by simp, by simp, by simp, .inl rfl⟩
      · exact .inr (faultsTo_of rfl (hs ▸ List.suffix_cons c rest) (by simp [maxPops, hs, hs2]) (operandFault s).1)
    · cases h
      refine .inl ⟨rest, s.fs, s.ip + 1, [], s.rs, by simp [State.setOs, State.advance], ?_, by simp, by simp, by simp,
        .inl rfl⟩
      simpa [maxPops, hs] using List.tail_suffix rest

end Sys2Proof.Machine
end

