-- ==== Sys2Proof/Laws/PerInstr.lean ====
section
/-! SUPPORT. What holds of the words of every instruction (spec/30_encoding.md R60): one lemma for each
constructor. -/

namespace Sys2Proof.Laws.WordsOfInstr

/-- The words of a well-formed instruction are as many as its slots, and each is a word of XLEN bits. -/
def Statement (i : Instr) : Prop :=
  ∀ (xlen : Nat) (opc : OpcodeMap), opc.WellFormed xlen → i.wellFormed xlen = true →
    (encode opc i).length = i.slots ∧ ∀ w ∈ encode opc i, InRange xlen w

/-- The opcode word of an instruction without an immediate. -/
theorem of_no_immediate {i : Instr} (h : i.immediate = none) (hs : i.slots = 1)
    (hm : i.mnemonic ∈ Mnemonic.all) : Statement i := by
  intro xlen opc ho _
  refine ⟨by simp [encode, h, hs], fun w hw => ?_⟩
  simp only [encode, h, List.mem_singleton] at hw
  exact hw ▸ ho.2 _ hm

/-- The opcode word and the immediate. -/
theorem of_immediate {i : Instr} {v : Word} (h : i.immediate = some v) (hs : i.slots = 2)
    (hm : i.mnemonic ∈ Mnemonic.all) : Statement i := by
  intro xlen opc ho hw
  refine ⟨by simp [encode, h, hs], fun w hw' => ?_⟩
  simp only [encode, h, List.mem_cons, List.not_mem_nil, or_false] at hw'
  rcases hw' with rfl | rfl
  · exact ho.2 _ hm
  · simpa [Instr.wellFormed, h] using hw

theorem nop : Statement .nop := of_no_immediate rfl rfl (by decide)
theorem halt : Statement .halt := of_no_immediate rfl rfl (by decide)
theorem push (imm : Word) : Statement (.push imm) := of_immediate rfl rfl (List.mem_of_elem_eq_true rfl)
theorem pop : Statement .pop := of_no_immediate rfl rfl (by decide)
theorem dup : Statement .dup := of_no_immediate rfl rfl (by decide)
theorem load (id : Word) : Statement (.load id) := of_immediate rfl rfl (List.mem_of_elem_eq_true rfl)
theorem store (id : Word) : Statement (.store id) := of_immediate rfl rfl (List.mem_of_elem_eq_true rfl)
theorem printI : Statement .printI := of_no_immediate rfl rfl (by decide)
theorem add : Statement .add := of_no_immediate rfl rfl (by decide)
theorem sub : Statement .sub := of_no_immediate rfl rfl (by decide)
theorem mul : Statement .mul := of_no_immediate rfl rfl (by decide)
theorem div : Statement .div := of_no_immediate rfl rfl (by decide)
theorem mod : Statement .mod := of_no_immediate rfl rfl (by decide)
theorem not : Statement .not := of_no_immediate rfl rfl (by decide)
theorem and : Statement .and := of_no_immediate rfl rfl (by decide)
theorem or : Statement .or := of_no_immediate rfl rfl (by decide)
theorem cmpE : Statement .cmpE := of_no_immediate rfl rfl (by decide)
theorem cmpNe : Statement .cmpNe := of_no_immediate rfl rfl (by decide)
theorem cmpG : Statement .cmpG := of_no_immediate rfl rfl (by decide)
theorem cmpGe : Statement .cmpGe := of_no_immediate rfl rfl (by decide)
theorem cmpL : Statement .cmpL := of_no_immediate rfl rfl (by decide)
theorem cmpLe : Statement .cmpLe := of_no_immediate rfl rfl (by decide)
theorem jmp : Statement .jmp := of_no_immediate rfl rfl (by decide)
theorem jif : Statement .jif := of_no_immediate rfl rfl (by decide)

end Sys2Proof.Laws.WordsOfInstr
end

