-- ==== Sys2Proof/Laws/Step.lean ====
section
/-! SUPPORT. What a step is in each run state, and what the start event does (spec/30_encoding.md R70,
70_reset_and_hazards.md R171). -/

namespace Sys2Proof.Machine

theorem step_of_ready {s : State} (h : s.rs = .ready) : step s = .next (startEvent s) := by
  simp [step, h]

theorem step_of_running {s : State} (h : s.rs = .running) : step s = stepRunning s := by
  simp [step, h]

theorem step_of_halted {s : State} (h : s.rs = .halted) : step s = .fault .noStepFromHalted := by
  simp [step, h]

theorem step_of_faulted {s : State} (h : s.rs = .faulted) : step s = .fault .noStepFromFaulted := by
  simp [step, h]

theorem stepRunning_of_instr {s : State} {i : Instr} (h : fetchInstr s = .instr i) : stepRunning s = exec i s := by
  simp [stepRunning, h]

theorem stepRunning_of_invalid {s : State} {w : Word} (h : fetchInstr s = .invalid w) :
    stepRunning s = execInvalid w s := by
  simp [stepRunning, h]

theorem stepRunning_of_raised {s s1 : State} {c : Cause} (h : fetchInstr s = .raised c s1) :
    stepRunning s = .next (raiseFault c s.ip s1) := by
  simp [stepRunning, h]

/-- The start event of a Ready machine begins the run where there is room for a frame, and else faults. -/
theorem startReady_cases (s : State) :
    (s.fs.length < s.cfg.frameCap ∧
      startReady s = ((s.setIp 0).setFs (Frame.initial :: s.fs)).setRs .running) ∨
    (s.cfg.frameCap ≤ s.fs.length ∧
      startReady s = raiseFault (.stackOverflow .frame) 0 (s.setIp 0)) := by
  rcases Nat.lt_or_ge s.fs.length s.cfg.frameCap with h | h
  · exact .inl ⟨h, by simp [startReady, fsPush_of_lt (s := s.setIp 0) (f := Frame.initial) h]⟩
  · exact .inr ⟨h, by simp [startReady, fsPush_of_le (s := s.setIp 0) (f := Frame.initial) h]⟩

theorem startEvent_of_ready {s : State} (h : s.rs = .ready) : startEvent s = startReady s := by
  simp [startEvent, h]

/-- Every instruction ends in a next state: a machine fault is one (60_exceptions.md R147). -/
theorem exec_completes (i : Instr) (s : State) : ∃ t, exec i s = .next t := by
  cases i
  case nop => exact ⟨_, rfl⟩
  case halt => exact ⟨_, rfl⟩
  all_goals exact conclude_completes _ _

end Sys2Proof.Machine
end

