-- ==== Sys2Proof/Tests/Slice0.lean ====
section
/-! SUPPORT. Tests of the model, each of at most one step, and the witnesses of the statements' hypotheses.

Expected results come from the spec: from spec/95_test_vectors.md, which lists stacks bottom first, and from the
encodings of spec/30_encoding.md. Here stacks are lists with the top first. -/

namespace Sys2Proof.Tests

open Sys2Proof.Machine

/-- A Running machine at index 0 of `prog` with the operand stack `os` (top first), default parameters, the
initial frame. -/
def machine (prog os : List Word) : State :=
  { State.reset with
    cfg := { Configuration.specDefault with prog := prog }, os := os, fs := [Frame.initial], rs := .running }

/-- The same with the capacity `cap` of the operand stack. -/
def capped (cap : Nat) (prog os : List Word) : State :=
  { machine prog os with cfg := { Configuration.specDefault with prog := prog, stackCap := cap } }

/-- The same with the overflow policy `fault`. -/
def strict (prog os : List Word) : State :=
  { machine prog os with cfg := { Configuration.specDefault with prog := prog, policy := .fault } }

/-- The same with the variables `vars` in its frame. -/
def withVars (vars : Memory) (prog os : List Word) : State :=
  { machine prog os with fs := [{ ra := 0, vars := vars }] }

/-- A state with no frame, which no run reaches. -/
def frameless (prog os : List Word) : State := { machine prog os with fs := [] }

/-- The largest word of 64 bits, written out. -/
def MAX : Word := 9223372036854775807

/-- The smallest word of 64 bits, written out. -/
def MIN : Word := -9223372036854775808

/-! ## Well-formedness refuses -/

/-- An immediate above MAX is no word, for each of the three instructions with one (30_encoding.md R63). -/
theorem test_wellFormed_refuses_immediate_above_max :
    (Instr.push (MAX + 1)).wellFormed 64 = false ∧ (Instr.load (MAX + 1)).wellFormed 64 = false ∧
      (Instr.store (MAX + 1)).wellFormed 64 = false := by decide

/-- An immediate below MIN is no word (30_encoding.md R63). -/
theorem test_wellFormed_refuses_immediate_below_min :
    (Instr.push (MIN - 1)).wellFormed 64 = false ∧ (Instr.load (MIN - 1)).wellFormed 64 = false ∧
      (Instr.store (MIN - 1)).wellFormed 64 = false := by decide

/-- Both ends of the range are accepted, and an instruction without an immediate always. -/
theorem test_wellFormed_accepts_the_ends :
    (Instr.push MAX).wellFormed 64 = true ∧ (Instr.store MIN).wellFormed 64 = true ∧
      Instr.add.wellFormed 64 = true := by decide

/-- The default configuration is in range. -/
theorem test_default_configuration_in_range : Configuration.specDefault.WellFormed := by decide

/-- A width of 0 bits is out of range (00_scope.md R3). -/
theorem test_configuration_refuses_width_zero :
    ¬ { Configuration.specDefault with xlen := 0 }.WellFormed := by decide

/-- Two mnemonics with one opcode are out of range (30_encoding.md R62). -/
theorem test_configuration_refuses_equal_opcodes :
    ¬ { Configuration.specDefault with opc := { OpcodeMap.standard with halt := 0 } }.WellFormed := by decide

/-- An opcode that is no word is out of range: 23 does not fit five bits (00_scope.md R3). -/
theorem test_configuration_refuses_opcode_beyond_the_width :
    ¬ { Configuration.specDefault with xlen := 5 }.WellFormed := by decide

/-- A slot of PROG that is no word is out of range (00_scope.md R3). -/
theorem test_configuration_refuses_slot_beyond_the_width :
    ¬ { Configuration.specDefault with prog := [MAX + 1] }.WellFormed := by decide

/-- PROG_LEN above MAX is out of range: 31 slots are allowed at six bits, and 32 are not (00_scope.md R3). -/
theorem test_configuration_refuses_too_long_a_program :
    { Configuration.specDefault with xlen := 6, prog := List.replicate 31 0 }.WellFormed ∧
      ¬ { Configuration.specDefault with xlen := 6, prog := List.replicate 32 0 }.WellFormed := by decide

/-! ## Decoding, from words written out (30_encoding.md R60, R64) -/

/-- Bit by bit: opcode word 8 (bit 3 alone), ADD; word 13 (bits 3, 2, 0), NOT; word 18 (bits 4, 1), CMP_G; word 22
(bits 4, 2, 1), JMP; word 1 (bit 0), HALT. -/
theorem test_decode_bits_of_one_slot :
    decodeTableWord 64 (2 ^ 3) = some .add ∧ decodeTableWord 64 (2 ^ 3 + 2 ^ 2 + 2 ^ 0) = some .not ∧
      decodeTableWord 64 (2 ^ 4 + 2 ^ 1) = some .cmpG ∧ decodeTableWord 64 (2 ^ 4 + 2 ^ 2 + 2 ^ 1) = some .jmp ∧
      decodeTableWord 64 (2 ^ 0) = some .halt := by decide

/-- Bit by bit: PUSH is bit 1 of the first slot, and its immediate begins at bit 64: bits 70, 69 and 66 are 100. A
second slot with only its top bit, bit 127, is MIN. -/
theorem test_decode_bits_of_two_slots :
    decodeTableWord 128 (2 ^ 70 + 2 ^ 69 + 2 ^ 66 + 2 ^ 1) = some (.push 100) ∧
      decodeTableWord 128 (2 ^ 127 + 2 ^ 2 + 2 ^ 0) = some (.load MIN) := by decide

/-- NOP and HALT. -/
theorem test_decode_general :
    decode OpcodeMap.standard [0] = .ok (.nop, []) ∧ decode OpcodeMap.standard [1, 7] = .ok (.halt, [7]) := by decide

/-- PUSH, POP, DUP, LOAD, STORE, PRINT_I; a literal that equals an opcode value is data (41_data.md R90). -/
theorem test_decode_data :
    decode OpcodeMap.standard [2, 2] = .ok (.push 2, []) ∧ decode OpcodeMap.standard [3] = .ok (.pop, []) ∧
      decode OpcodeMap.standard [4] = .ok (.dup, []) ∧ decode OpcodeMap.standard [5, 3, 1] = .ok (.load 3, [1]) ∧
      decode OpcodeMap.standard [6, -2] = .ok (.store (-2), []) ∧
      decode OpcodeMap.standard [7] = .ok (.printI, []) := by decide

/-- ADD, SUB, MUL, DIV, MOD. -/
theorem test_decode_arithmetic :
    decode OpcodeMap.standard [8] = .ok (.add, []) ∧ decode OpcodeMap.standard [9] = .ok (.sub, []) ∧
      decode OpcodeMap.standard [10] = .ok (.mul, []) ∧ decode OpcodeMap.standard [11] = .ok (.div, []) ∧
      decode OpcodeMap.standard [12] = .ok (.mod, []) := by decide

/-- NOT, AND, OR. -/
theorem test_decode_logic :
    decode OpcodeMap.standard [13] = .ok (.not, []) ∧ decode OpcodeMap.standard [14] = .ok (.and, []) ∧
      decode OpcodeMap.standard [15] = .ok (.or, []) := by decide

/-- The six comparisons. -/
theorem test_decode_comparison :
    decode OpcodeMap.standard [16] = .ok (.cmpE, []) ∧ decode OpcodeMap.standard [17] = .ok (.cmpNe, []) ∧
      decode OpcodeMap.standard [18] = .ok (.cmpG, []) ∧ decode OpcodeMap.standard [19] = .ok (.cmpGe, []) ∧
      decode OpcodeMap.standard [20] = .ok (.cmpL, []) ∧ decode OpcodeMap.standard [21] = .ok (.cmpLe, []) := by decide

/-- JMP and JIF. -/
theorem test_decode_control :
    decode OpcodeMap.standard [22] = .ok (.jmp, []) ∧ decode OpcodeMap.standard [23] = .ok (.jif, []) := by decide

/-- What is no instruction is rejected by name: the first word above the table, -1, ADD's word plus 2^32 (the
whole word is compared, R62), a missing immediate, and nothing at all. -/
theorem test_decode_rejects :
    decode OpcodeMap.standard [24, 1] = .error (.invalidOpcode 24) ∧
      decode OpcodeMap.standard [-1] = .error (.invalidOpcode (-1)) ∧
      decode OpcodeMap.standard [4294967304] = .error (.invalidOpcode 4294967304) ∧
      decode OpcodeMap.standard [6] = .error (.noImmediateSlot .store) ∧
      decode OpcodeMap.standard [] = .error .noOpcodeSlot := by decide

/-- The words of an instruction, from the table (30_encoding.md R64). -/
theorem test_encode :
    encode OpcodeMap.standard (.push (-7)) = [2, -7] ∧ encode OpcodeMap.standard .jif = [23] := by decide

/-! ## Reset, start, stop -/

/-- A reset after a halt latches the program and the capacities, and keeps the width, the opcode map and the
policy of the build (70_reset_and_hazards.md R170). -/
theorem test_reset_keeps_the_build :
    resetEvent { prog := [1], stackCap := 2, frameCap := 3 } { strict [8] [200, 300] with rs := .halted } =
      .next (State.resetWith
        { Configuration.specDefault with policy := .fault, prog := [1], stackCap := 2, frameCap := 3 }) := by
  rfl

/-- The texts come from the configuration, but for a printed word (10_state.md R26). -/
theorem test_output :
    let c := { Configuration.specDefault with texts := { nop := "nop", halt := "halt", invalid := "bad" } }
    { machine [] [] with
      cfg := c
      trace := [⟨.nop, 0⟩, ⟨.invalid, 99⟩, ⟨.print, -5⟩, ⟨.halt, 0⟩] }.output = ["nop", "bad", "-5", "halt"] := by
  decide

/-- The start event at the default parameters, on the empty program (R171). -/
theorem test_start : step State.reset = .next (machine [] []) := rfl

/-- 95_test_vectors.md section 3: FRAME_CAP = 0. -/
theorem test_start_without_room_for_a_frame :
    let c := { Configuration.specDefault with frameCap := 0 }
    step (State.resetWith c) = .next { State.resetWith c with rs := .faulted, fk := .stackOverflow, fsel := 1 } := rfl

/-- 95_test_vectors.md section 3: PROG_LEN = 0. -/
theorem test_fetch_from_an_empty_program :
    step (machine [] []) = .next { machine [] [] with rs := .faulted, fk := .fetchFault } := rfl

/-- 95_test_vectors.md section 3: PUSH in the last slot with the stack full is a FetchFault, not an overflow. -/
theorem test_missing_immediate_before_overflow :
    step (capped 1 [2] [5]) = .next { capped 1 [2] [5] with ip := 1, rs := .faulted, fk := .fetchFault } := rfl

/-- No step from Halted (10_state.md R23). -/
theorem test_no_step_from_halted :
    step { machine [1] [] with rs := .halted } = .fault .noStepFromHalted := rfl

/-- The instruction placed for the host is the very next one run, from the reset state: PUSH 100. -/
theorem test_withFetchWord_from_reset :
    step (State.reset.withFetchWord 128 (2 ^ 70 + 2 ^ 69 + 2 ^ 66 + 2 ^ 1)) =
      .next { machine [2, 100] [] with ip := 2, os := [100] } := rfl

/-- The instruction placed for the host in a run stands at `ip` and replaces only the slots there. -/
theorem test_withFetchWord_in_a_run :
    { machine [7, 7, 7, 7] [] with ip := 1 }.withFetchWord 64 4 = { machine [7, 4, 0, 7] [] with ip := 1 } := by
  decide

/-! ## General and invalid (95_test_vectors.md section 2) -/

theorem test_nop :
    step (machine [0] [3]) = .next { machine [0] [3] with ip := 1, trace := [{ kind := .nop, data := 0 }] } := rfl

theorem test_halt :
    step (machine [1] [3]) =
      .next { machine [1] [3] with ip := 1, rs := .halted, trace := [{ kind := .halt, data := 0 }] } := rfl

theorem test_invalid_word :
    step (machine [99] [3]) =
      .next { machine [99] [3] with ip := 1, trace := [{ kind := .invalid, data := 99 }] } := rfl

theorem test_invalid_word_that_ends_like_add :
    step (machine [4294967304] [2, 1]) =
      .next { machine [4294967304] [2, 1] with ip := 1, trace := [{ kind := .invalid, data := 4294967304 }] } := rfl

/-! ## Data -/

theorem test_push : step (machine [2, -1] [5]) = .next { machine [2, -1] [5] with ip := 2, os := [-1, 5] } := rfl

theorem test_push_on_a_full_stack :
    step (capped 1 [2, 0] [5]) =
      .next { capped 1 [2, 0] [5] with ip := 2, rs := .faulted, fk := .stackOverflow } := rfl

theorem test_pop : step (machine [3] [9, 7]) = .next { machine [3] [9, 7] with ip := 1, os := [7] } := rfl

theorem test_pop_of_an_empty_stack :
    step (machine [3] []) = .next { machine [3] [] with ip := 1, rs := .faulted, fk := .stackUnderflow } := rfl

theorem test_dup : step (machine [4] [-4, 1]) = .next { machine [4] [-4, 1] with ip := 1, os := [-4, -4, 1] } := rfl

theorem test_dup_on_a_full_stack :
    step (capped 1 [4] [5]) = .next { capped 1 [4] [5] with ip := 1, rs := .faulted, fk := .stackOverflow } := rfl

theorem test_load :
    step (withVars [(-2, 9), (1, 200)] [5, -2] [300]) =
      .next { withVars [(-2, 9), (1, 200)] [5, -2] [300] with ip := 2, os := [9, 300] } := rfl

theorem test_load_of_a_variable_never_written :
    step (machine [5, 3] []) = .next { machine [5, 3] [] with ip := 2, os := [0] } := rfl

theorem test_store :
    step (withVars [(0, 100)] [6, 0] [2, 1]) =
      .next { withVars [(0, 2)] [6, 0] [2, 1] with ip := 2, os := [1] } := rfl

/-- STORE of 0 leaves the cell reading 0; in canonical form it is not listed. -/
theorem test_store_of_zero :
    step (withVars [(-2, 4), (0, 100), (3, 1)] [6, 0] [0]) =
      .next { withVars [(-2, 4), (3, 1)] [6, 0] [0] with ip := 2, os := [] } := rfl

theorem test_printI :
    step (machine [7] [-5]) =
      .next { machine [7] [-5] with ip := 1, os := [], trace := [{ kind := .print, data := -5 }] } := rfl

/-- The texts of 95_test_vectors.md section 2 for 500, 0, -5, MIN and MAX, as characters. -/
theorem test_dec :
    decChars 500 = ['5', '0', '0'] ∧ decChars 0 = ['0'] ∧ decChars (-5) = ['-', '5'] ∧
      decChars MIN = "-9223372036854775808".toList ∧ decChars MAX = "9223372036854775807".toList := by decide

/-! ## Arithmetic -/

theorem test_add : step (machine [8] [200, 300]) = .next { machine [8] [200, 300] with ip := 1, os := [500] } := rfl

theorem test_add_wraps : step (machine [8] [1, MAX]) = .next { machine [8] [1, MAX] with ip := 1, os := [MIN] } := rfl

/-- b is on top: a - b is 10 - 5. -/
theorem test_sub : step (machine [9] [5, 10]) = .next { machine [9] [5, 10] with ip := 1, os := [5] } := rfl

theorem test_sub_overflow_under_fault :
    step (strict [9] [1, MIN]) =
      .next { strict [9] [1, MIN] with ip := 1, os := [], rs := .faulted, fk := .arithmeticFault, fsel := 1 } := rfl

theorem test_mul : step (machine [10] [4, -3]) = .next { machine [10] [4, -3] with ip := 1, os := [-12] } := rfl

theorem test_mul_wraps :
    step (machine [10] [3037000500, 3037000500]) =
      .next { machine [10] [3037000500, 3037000500] with ip := 1, os := [-9223372036709301616] } := rfl

/-- -7 by 2 is -3: toward zero, not down. -/
theorem test_div : step (machine [11] [2, -7]) = .next { machine [11] [2, -7] with ip := 1, os := [-3] } := rfl

/-- 95_test_vectors.md section 3: DIV at index 4 of `[2,1, 2,0, 11]`. -/
theorem test_div_by_zero :
    step { machine [2, 1, 2, 0, 11] [0, 1] with ip := 4 } =
      .next { machine [2, 1, 2, 0, 11] [] with ip := 5, rs := .faulted, fk := .arithmeticFault, fip := 4 } := rfl

theorem test_mod : step (machine [12] [-2, 7]) = .next { machine [12] [-2, 7] with ip := 1, os := [1] } := rfl

theorem test_mod_of_a_negative : step (machine [12] [2, -7]) = .next { machine [12] [2, -7] with ip := 1, os := [-1] } := rfl

/-! ## Logic -/

theorem test_not : step (machine [13] [0, 4]) = .next { machine [13] [0, 4] with ip := 1, os := [1, 4] } := rfl

theorem test_not_of_min : step (machine [13] [MIN]) = .next { machine [13] [MIN] with ip := 1, os := [0] } := rfl

/-- 2 and 4 are both true, although they share no bit. -/
theorem test_and : step (machine [14] [4, 2]) = .next { machine [14] [4, 2] with ip := 1, os := [1] } := rfl

theorem test_and_with_one_operand :
    step (machine [14] [8]) = .next { machine [14] [] with ip := 1, rs := .faulted, fk := .stackUnderflow } := rfl

theorem test_or : step (machine [15] [-9, 0]) = .next { machine [15] [-9, 0] with ip := 1, os := [1] } := rfl

theorem test_or_of_zeros : step (machine [15] [0, 0]) = .next { machine [15] [0, 0] with ip := 1, os := [0] } := rfl

/-! ## Comparison: the outcomes for (a, b), b on top -/

theorem test_cmpE : step (machine [16] [4, 4]) = .next { machine [16] [4, 4] with ip := 1, os := [1] } := rfl

theorem test_cmpNe : step (machine [17] [5, 4]) = .next { machine [17] [5, 4] with ip := 1, os := [1] } := rfl

/-- 0 > -1: signed, and a is the lower element. -/
theorem test_cmpG : step (machine [18] [-1, 0]) = .next { machine [18] [-1, 0] with ip := 1, os := [1] } := rfl

theorem test_cmpGe : step (machine [19] [MIN, MIN]) = .next { machine [19] [MIN, MIN] with ip := 1, os := [1] } := rfl

theorem test_cmpL : step (machine [20] [0, -1]) = .next { machine [20] [0, -1] with ip := 1, os := [1] } := rfl

theorem test_cmpLe : step (machine [21] [4, 5]) = .next { machine [21] [4, 5] with ip := 1, os := [0] } := rfl

/-! ## Control flow -/

theorem test_jmp : step (machine [22] [0, 9]) = .next { machine [22] [0, 9] with os := [9] } := rfl

/-- JMP to -1 completes; the next fetch raises (95_test_vectors.md section 2). -/
theorem test_fetch_after_jump_to_minus_one :
    step { machine [22] [] with ip := -1 } =
      .next { machine [22] [] with ip := -1, rs := .faulted, fk := .fetchFault, fip := -1 } := rfl

theorem test_jif_taken : step (machine [23] [-7, 12]) = .next { machine [23] [] with ip := 12 } := rfl

/-- A zero condition removes one element, not two. -/
theorem test_jif_not_taken : step (machine [23] [0, 12]) = .next { machine [23] [12] with ip := 1 } := rfl

/-! ## Witnesses: for each statement with hypotheses, values that meet them, clause by clause -/

/-- The hypothesis of DecodeOfEncodeIsIdentity, RecogniseComparesWholeWord and LengthIsDecidedByOpcodeWord, also at
the smallest width that holds the default map; the two clauses of the last at its opcodes, at another and at no
opcode. -/
theorem witness_opcode_map :
    OpcodeMap.standard.WellFormed 64 ∧ OpcodeMap.standard.WellFormed 6 ∧
      ((2 : Word) = OpcodeMap.standard.push ∧ (5 : Word) = OpcodeMap.standard.load ∧
        (6 : Word) = OpcodeMap.standard.store) ∧
      ∀ w ∈ [(1 : Word), 7, 24], ¬ (w = OpcodeMap.standard.push ∨ w = OpcodeMap.standard.load ∨
        w = OpcodeMap.standard.store) := by decide

theorem witness_EncodeOfDecodeIsIdentity :
    decode OpcodeMap.standard [2, 100, 1] = .ok (.push 100, [1]) := by decide

theorem witness_TableBitsOfEncodingDecode :
    (Instr.push MIN).wellFormed 64 = true ∧ (Instr.load MAX).wellFormed 64 = true := by decide

theorem witness_StepRunsTheDecodedInstruction :
    let s := { machine [0, 2, -1] [] with ip := 1 }
    s.rs = .running ∧ 0 ≤ s.ip ∧ decode s.cfg.opc (s.cfg.prog.drop s.ip.toNat) = .ok (.push (-1), []) := by decide

theorem witness_InvalidOpcodeIsATracedNoOp :
    let s := machine [24] []
    s.rs = .running ∧ memRead s.cfg s.ip = some 24 ∧ recognise s.cfg.opc 24 = none := by decide

/-- Both sides of the stream: ip -1, and ip at PROG_LEN. -/
theorem witness_OpcodeFetchOutsideTheStreamFaults :
    let s := { machine [0] [] with ip := -1 }
    let t := { machine [0] [] with ip := 1 }
    (s.rs = .running ∧ s.ip < 0) ∧ (t.rs = .running ∧ (t.cfg.prog.length : Int) ≤ t.ip) := by decide

theorem witness_MissingImmediateSlotFaults :
    let s := { machine [0, 6] [9] with ip := 1 }
    s.cfg.WellFormed ∧ s.rs = .running ∧ memRead s.cfg s.ip = some 6 ∧ (6 : Word) = s.cfg.opc.store ∧
      s.ip + 1 = (s.cfg.prog.length : Int) := by decide

theorem witness_StepExistsExactlyFromReadyAndRunning :
    (machine [] []).rs = .running ∧ State.reset.rs = .ready ∧
      ({ machine [] [] with rs := .halted }.rs ≠ .ready) := by decide

/-- A step of each of the five edges. -/
theorem witness_RunStateTransitionsAreTheListedOnes :
    (∃ t, step State.reset = .next t ∧ t.rs = .running) ∧
    (∃ t, step (State.resetWith { Configuration.specDefault with frameCap := 0 }) = .next t ∧ t.rs = .faulted) ∧
    (∃ t, step (machine [0] []) = .next t ∧ t.rs = .running) ∧
    (∃ t, step (machine [3] []) = .next t ∧ t.rs = .faulted) ∧
    (∃ t, step (machine [1] []) = .next t ∧ t.rs = .halted) :=
  ⟨⟨_, rfl, rfl⟩, ⟨_, rfl, rfl⟩, ⟨_, rfl, rfl⟩, ⟨_, rfl, rfl⟩, ⟨_, rfl, rfl⟩⟩

/-- Also for every statement whose hypothesis is that an instruction, or an invalid opcode, answers a next state:
NoStepWritesTheInstructionStream, SequentialAdvanceOfIp, OnlyAFaultWritesTheFaultRecord, OnlyStoreWritesVariables,
ElementsBelowTheOperandsAreUntouched, OnlyFourCasesEmitEvents, ReturnAddressIsNeverReadNorFramesDriven. -/
theorem witness_next_states :
    (∃ t, step (machine [8] [2, 1, 7]) = .next t) ∧
    (∃ t, exec .add (machine [] [2, 1, 7]) = .next t ∧ t.rs ≠ .faulted) ∧
    (∃ t, exec .halt (machine [] []) = .next t ∧ t.rs ≠ .faulted) ∧
    (∃ t, exec (.store 3) (machine [] [2]) = .next t) ∧ (∃ t, execInvalid 24 (machine [] []) = .next t) ∧
    (∃ t, exec .nop (machine [] []) = .next t) ∧ (∃ t, exec .printI (machine [] []) = .next t) ∧
    (∃ t, exec .printI (machine [] [4, 5]) = .next t) :=
  ⟨⟨_, rfl⟩, ⟨_, rfl, by decide⟩, ⟨_, rfl, by decide⟩, ⟨_, rfl⟩, ⟨_, rfl⟩, ⟨_, rfl⟩, ⟨_, rfl⟩, ⟨_, rfl⟩⟩

/-- On a build of six bits, a program of MAX slots is in range, and one slot more is not. -/
theorem witness_ResetEventGivesTheResetValues :
    let c := { Configuration.specDefault with xlen := 6, policy := .fault }
    { c with prog := List.replicate 31 0, stackCap := 0, frameCap := 1 }.WellFormed ∧
      ¬ { c with prog := List.replicate 32 0, stackCap := 0, frameCap := 1 }.WellFormed := by decide

/-- Room for one frame exactly, and FRAME_CAP = 0. -/
theorem witness_StartEventBeginsTheRun :
    let s := State.resetWith { Configuration.specDefault with frameCap := 1 }
    let t := State.resetWith { Configuration.specDefault with frameCap := 0 }
    (s.rs = .ready ∧ s.fs.length < s.cfg.frameCap) ∧ (t.rs = .ready ∧ t.cfg.frameCap = 0) := by decide

theorem witness_StartEventActsOnlyInReady :
    (machine [] []).rs ≠ .ready ∧ { machine [] [] with rs := .halted }.rs ≠ .ready ∧
      { machine [] [] with rs := .faulted }.rs ≠ .ready := by decide

/-- A state that satisfies the invariant, with a variable, two elements and an event, and its step. -/
theorem witness_StepKeepsTheMachineInvariant :
    let s := { withVars [(-2, 9), (1, 200)] [8] [MAX, 1] with trace := [{ kind := .print, data := 5 }] }
    s.Inv ∧ ∃ t, step s = .next t :=
  ⟨⟨by decide, ⟨by decide, by decide, by decide, by decide, by decide, by decide⟩, ⟨by decide, by decide⟩, by decide,
      ⟨by decide, by decide⟩, ⟨⟨_, rfl, rfl⟩, by decide⟩⟩, ⟨_, rfl⟩⟩

theorem witness_ResetSatisfiesTheMachineInvariant :
    { Configuration.specDefault with xlen := 6, prog := List.replicate 31 0, policy := .fault }.WellFormed ∧
      ∃ t, resetEvent { prog := [1], stackCap := 2, frameCap := 3 } (machine [8] [200, 300]) = .next t :=
  ⟨by decide, ⟨_, rfl⟩⟩

/-- One element below the capacity, at the capacity, capacity 0, not empty, empty. -/
theorem witness_OperandStackOperationContracts :
    let s := capped 2 [] [7]
    let t := capped 2 [] [7, 8]
    let u := capped 0 [] []
    s.os.length < s.cfg.stackCap ∧ t.cfg.stackCap ≤ t.os.length ∧ u.cfg.stackCap = 0 ∧ s.os.length ≠ 0 ∧
      u.os.length = 0 := by decide

theorem witness_FrameStackOperationContracts :
    let s := machine [] []
    let t := { machine [] [] with cfg := { Configuration.specDefault with frameCap := 1 } }
    s.fs.length < s.cfg.frameCap ∧ t.cfg.frameCap ≤ t.fs.length ∧ State.reset.fs = [] ∧
      s.fs = Frame.initial :: [] := by decide

theorem witness_StackQueriesTellWhatSucceeds :
    (capped 2 [] [7]).os.length ≤ (capped 2 [] [7]).cfg.stackCap ∧
      (capped 2 [] [7, 8]).os.length ≤ (capped 2 [] [7, 8]).cfg.stackCap := by decide

/-- Pushes that fill the stack exactly, a full stack, an empty one, a peek that succeeds; the same of frames. -/
theorem witness_LifoLawOfBothStacks :
    let s := capped 3 [] [7]
    let t := { machine [] [] with cfg := { Configuration.specDefault with frameCap := 2 } }
    let u := { t with fs := [Frame.initial, Frame.initial] }
    (s.os.length + [8, (9 : Word)].length ≤ s.cfg.stackCap ∧
      (capped 1 [] [7]).os.length = (capped 1 [] [7]).cfg.stackCap ∧ (machine [] []).os = [] ∧
      osPeek s = .ok 7 s) ∧
    (t.fs.length + [Frame.initial].length ≤ t.cfg.frameCap ∧ u.fs.length = u.cfg.frameCap ∧
      State.reset.fs = [] ∧ fsPeek t = .ok Frame.initial t) :=
  ⟨⟨by decide, by decide, rfl, rfl⟩, ⟨by decide, by decide, rfl, rfl⟩⟩

/-- One element below the capacity, and at it. -/
theorem witness_PushEffect :
    (capped 2 [] [7]).os.length < (capped 2 [] [7]).cfg.stackCap ∧
      (capped 1 [] [7]).cfg.stackCap ≤ (capped 1 [] [7]).os.length := by decide

/-- The operands of PopAndPrintEffects, JmpEffect, LogicEffects, ComparisonProtocol, ArithmeticProtocol and their
shortages: two elements, one, none, each on a stack within its capacity, which two elements fill. -/
theorem witness_operands :
    (∃ a b : Word, ∃ rest, (capped 2 [] [2, 1]).os = b :: a :: rest) ∧ (∃ b : Word, (capped 2 [] [8]).os = [b]) ∧
      (capped 2 [] []).os = [] ∧ (∀ os ∈ [[(2 : Word), 1], [8], []], (capped 2 [] os).os.length ≤ 2) :=
  ⟨⟨_, _, _, rfl⟩, ⟨_, rfl⟩, rfl, by decide⟩

theorem witness_DupEffect :
    ((capped 2 [] [5]).os = 5 :: [] ∧ (capped 2 [] [5]).os.length < (capped 2 [] [5]).cfg.stackCap) ∧
      ((capped 1 [] [5]).os = 5 :: [] ∧ (capped 1 [] [5]).cfg.stackCap ≤ (capped 1 [] [5]).os.length) ∧
      (capped 0 [] []).os = [] := by decide

theorem witness_LoadEffect :
    (∃ f frames, (capped 2 [] [5]).fs = f :: frames ∧
      (capped 2 [] [5]).os.length < (capped 2 [] [5]).cfg.stackCap) ∧
    (∃ f frames, (capped 1 [] [5]).fs = f :: frames ∧
      (capped 1 [] [5]).cfg.stackCap ≤ (capped 1 [] [5]).os.length) ∧
    (frameless [] []).fs = [] :=
  ⟨⟨_, _, rfl, by decide⟩, ⟨_, _, rfl, by decide⟩, rfl⟩

/-- Also for the second part of OnlyStoreWritesVariables. -/
theorem witness_StoreEffect :
    (∃ (v : Word) (rest : List Word) (f : Frame) (frames : List Frame),
      (withVars [(-2, 9)] [] [7, 8]).os = v :: rest ∧ (withVars [(-2, 9)] [] [7, 8]).fs = f :: frames ∧
      Memory.wf f.vars ∧ ∃ t, exec (.store (-2)) (withVars [(-2, 9)] [] [7, 8]) = .next t) ∧
    (machine [] []).os = [] ∧
    (∃ (v : Word) (rest : List Word), (frameless [] [7]).os = v :: rest ∧ (frameless [] [7]).fs = []) :=
  ⟨⟨_, _, _, _, rfl, rfl, by decide, _, rfl⟩, rfl, ⟨_, _, rfl, rfl⟩⟩

theorem witness_VariableWriteContract :
    Memory.wf ({ ra := 0, vars := [(-2, 9), (1, 200)] } : Frame).vars ∧
    (∃ (t : State) (v : Word) (rest : List Word), (machine [] [7]).os = v :: rest ∧ (machine [] [7]).fs ≠ [] ∧
      exec (.store 1) (machine [] [7]) = .next t) :=
  ⟨by decide, ⟨_, _, _, rfl, by decide, rfl⟩⟩

theorem witness_StoreThenLoadReturnsTheValue :
    ∃ (f : Frame) (frames : List Frame), (capped 1 [] [77]).os ≠ [] ∧
      (capped 1 [] [77]).os.length ≤ (capped 1 [] [77]).cfg.stackCap ∧
      (capped 1 [] [77]).fs = f :: frames ∧ Memory.wf f.vars :=
  ⟨_, _, by decide, by decide, rfl, by decide⟩

/-- The three answers of an operation: a word, no divisor, an overflow. -/
theorem witness_ArithmeticProtocol :
    (Instr.add, aluAdd) ∈ [(Instr.add, aluAdd), (Instr.sub, aluSub)] ∧
    aluAdd (machine [] []).cfg 1 2 = .ok 3 ∧ aluDiv (machine [] []).cfg 1 0 = .error .zeroDivisor ∧
    aluMod (strict [] []).cfg MIN (-1) = .error .overflow :=
  ⟨by simp, rfl, rfl, rfl⟩

/-- An exact result that is MAX, one beyond it under wrap, and one beyond it under fault. -/
theorem witness_AddSubMulResults :
    let s := machine [] [1, MAX - 1]
    let t := machine [] [1, MAX]
    let u := strict [] [1, MAX]
    1 ≤ s.cfg.xlen ∧ s.os = 1 :: (MAX - 1) :: [] ∧ s.os.length ≤ s.cfg.stackCap ∧ InRange s.cfg.xlen (MAX - 1 + 1) ∧
      t.cfg.policy = .wrap ∧ t.os = 1 :: MAX :: [] ∧ u.cfg.policy = .fault ∧ u.os = 1 :: MAX :: [] ∧
      ¬ InRange u.cfg.xlen (MAX + 1) := by decide

/-- MIN by 1, next to the one excluded pair. -/
theorem witness_DivModResults :
    let s := machine [] [1, MIN]
    1 ≤ s.cfg.xlen ∧ InRange s.cfg.xlen MIN ∧ InRange s.cfg.xlen 1 ∧ (1 : Word) ≠ 0 ∧
      ¬ (MIN = minWord s.cfg.xlen ∧ (1 : Word) = -1) ∧ s.os = 1 :: MIN :: [] ∧
      s.os.length ≤ s.cfg.stackCap := by decide

/-- A zero divisor under both policies, with the dividend 0 too. -/
theorem witness_ZeroDivisorAlwaysFaults :
    (machine [] [0, 1, 6]).os = 0 :: 1 :: [6] ∧ (strict [] [0, 0]).os = 0 :: 0 :: [] := by decide

theorem witness_OnlyMinByMinusOneOverflows :
    (1 ≤ 64 ∧ InRange 64 MIN ∧ InRange 64 (-1) ∧ (-1 : Word) ≠ 0) ∧
    (∀ s ∈ [machine [] [-1, MIN], strict [] [-1, MIN]], 1 ≤ s.cfg.xlen ∧ s.os = -1 :: minWord s.cfg.xlen :: [] ∧
      s.os.length ≤ s.cfg.stackCap) ∧
    (machine [] [-1, MIN]).cfg.policy = .wrap ∧ (strict [] [-1, MIN]).cfg.policy = .fault := by decide

/-- Operands of like and of unlike sign, and an exact division. -/
theorem witness_TruncatingDivisionLaw :
    (2 : Int) ≠ 0 ∧ (0 : Int) ≤ -7 * -2 ∧ (-7 : Int) * 2 ≤ 0 ∧ tmod 6 3 = 0 := by decide

/-- For the width 1, whose words are -1 and 0, the word congruent to 3 is -1. -/
theorem witness_WrapIsTheUniqueCongruentWord :
    InRange 1 (-1) ∧ ((2 ^ 1 : Nat) : Int) ∣ 3 - -1 := by decide

/-- A Running state, an instruction of the nine, and its Running next state: NOT at a full stack, AND, CMP_L. -/
theorem witness_LogicAndComparisonResultsAreZeroOrOne :
    (∃ t, (capped 1 [] [5]).rs = .running ∧ exec .not (capped 1 [] [5]) = .next t ∧ t.rs = .running) ∧
    (∃ t, exec .and (machine [] [2, 4]) = .next t ∧ t.rs = .running) ∧
    (∃ t, exec .cmpL (machine [] [0, -1]) = .next t ∧ t.rs = .running) :=
  ⟨⟨_, rfl, rfl, rfl⟩, ⟨_, rfl, rfl⟩, ⟨_, rfl, rfl⟩⟩

/-- An opcode outside the family with both operands there; and a state that holds the kind before and after. -/
theorem witness_UnknownComparisonOperatorIsUnreachable :
    (∃ t, exec .nop { machine [] [] with fk := .unknownComparisonOperator } = .next t ∧
      t.fk = .unknownComparisonOperator) ∧
    Mnemonic.jmp ∉ [Mnemonic.cmpE, .cmpNe, .cmpG, .cmpGe, .cmpL, .cmpLe] ∧ (machine [] [2, 1]).os = 2 :: 1 :: [] :=
  ⟨⟨_, rfl, rfl⟩, by decide, rfl⟩

/-- The targets -1 and PROG_LEN, both outside, on a Running machine. -/
theorem witness_JmpEffect :
    (machine [22] [-1]).os = -1 :: [] ∧ (-1 : Word) < 0 ∧ (machine [22] [1]).os = 1 :: [] ∧
      ((machine [22] [1]).cfg.prog.length : Int) ≤ 1 ∧ (machine [22] [1]).rs = .running := by decide

/-- A negative condition with a target, a zero condition with nothing under it, a condition alone, nothing. -/
theorem witness_JifEffect :
    ((-7 : Word) ≠ 0 ∧ (machine [] [-7, 12]).os = -7 :: 12 :: []) ∧ (machine [] [0]).os = 0 :: [] ∧
      ((1 : Word) ≠ 0 ∧ (machine [] [1]).os = [1]) ∧ (machine [] []).os = [] := by decide

/-- The clauses for jumps: a JIF not taken, a JIF that faults, a JMP that completes. -/
theorem witness_SequentialAdvanceOfIp :
    (∃ t, (machine [] [0, 3]).os = 0 :: [3] ∧ exec .jif (machine [] [0, 3]) = .next t) ∧
    (∃ t, (machine [] [1]).rs ≠ .faulted ∧ exec .jif (machine [] [1]) = .next t ∧ t.rs = .faulted) ∧
    (∃ t, (machine [] [4]).os = 4 :: [] ∧ exec .jmp (machine [] [4]) = .next t) :=
  ⟨⟨_, rfl, rfl⟩, ⟨_, by decide, rfl, rfl⟩, ⟨_, rfl, rfl⟩⟩

theorem witness_FaultingInstructionLeavesStoreAndTrace :
    ∃ t, (machine [] [0, 1, 6]).rs ≠ .faulted ∧ exec .mod (machine [] [0, 1, 6]) = .next t ∧ t.rs = .faulted :=
  ⟨_, by decide, rfl, rfl⟩

/-- A run of one step that ends, with a larger bound. -/
theorem witness_EndedRunKeepsItsResult :
    runResult 1 (machine [1] []) = some .success ∧ 1 ≤ 2 := by decide

end Sys2Proof.Tests
end

section
/-! Rules of the bounded-stack unit (spec/10_state.md R14 to R17, R29) that the statements about the state use. -/

namespace Sys2Proof.Machine

/-! ## Elements counted from the bottom -/

/-- The element just put on top stands at the index the count had before (10_state.md R14). -/
theorem BoundedStack.element_cons_length {α : Type} (v : α) (st : List α) :
    BoundedStack.element (v :: st) st.length = some v := by
  simp [BoundedStack.element]

/-- What lies on top of an element does not move it (10_state.md R13). -/
theorem BoundedStack.element_cons_of_lt {α : Type} (v : α) {st : List α} {k : Nat} (h : k < st.length) :
    BoundedStack.element (v :: st) k = BoundedStack.element st k := by
  simp [BoundedStack.element, List.getElem?_append_left, h]

/-! ## When a stack operation fails, and what undoes a push -/

theorem osPush_overflows_iff {v : Word} {s : State} :
    osPush v s = .raised (.stackOverflow .operand) s ↔ s.cfg.stackCap ≤ s.os.length := by
  refine ⟨fun h => ?_, osPush_of_le⟩
  rcases osPush_cases v s with ⟨_, hok⟩ | ⟨hle, _⟩
  · simp [hok] at h
  · exact hle

theorem osPop_underflows_iff {s : State} :
    osPop s = .raised (.stackUnderflow .operand) s ↔ s.os = [] := by
  refine ⟨fun h => ?_, osPop_nil⟩
  rcases osPop_cases s with ⟨v, rest, _, hok⟩ | ⟨hnil, _⟩
  · simp [hok] at h
  · exact hnil

theorem osPop_of_osPush {v : Word} {s t : State} (h : osPush v s = .ok () t) : osPop t = .ok v s := by
  rcases osPush_cases v s with ⟨_, hok⟩ | ⟨_, hraised⟩
  · obtain rfl : s.setOs (v :: s.os) = t := by simpa [hok] using h
    exact osPop_cons rfl
  · simp [hraised] at h

theorem fsPop_of_fsPush {f : Frame} {s t : State} (h : fsPush f s = .ok () t) : fsPop t = .ok f s := by
  rcases Nat.lt_or_ge s.fs.length s.cfg.frameCap with hlt | hle
  · obtain rfl : s.setFs (f :: s.fs) = t := by simpa [fsPush_of_lt hlt] using h
    exact fsPop_cons rfl
  · simp [fsPush_of_le hle] at h

theorem osPeek_keeps_state {v : Word} {s t : State} (h : osPeek s = .ok v t) : t = s := by
  rcases osPeek_cases s with ⟨x, rest, _, hok⟩ | ⟨_, hraised⟩
  · rw [hok] at h
    injection h with _ hs
    exact hs.symm
  · simp [hraised] at h

theorem fsPeek_keeps_state {f : Frame} {s t : State} (h : fsPeek s = .ok f t) : t = s := by
  rcases fsPeek_cases s with ⟨g, rest, _, hok⟩ | ⟨_, hraised⟩
  · rw [hok] at h
    injection h with _ hs
    exact hs.symm
  · simp [hraised] at h

/-! ## Sequences of pushes and of pops, for either stack -/

section Sequences

variable {α : Type} {push : α → State → Res Unit} {pop : State → Res α}

/-- If a push completes and uses up one place wherever `room` counts one, as many pushes as there is room for
complete. -/
theorem pushAll_completes {room : State → Nat}
    (hpush : ∀ v s, 0 < room s → ∃ t, push v s = .ok () t ∧ room t + 1 = room s)
    (vs : List α) (s : State) (h : vs.length ≤ room s) : ∃ t, pushAll push vs s = .ok () t := by
  induction vs generalizing s with
  | nil => exact ⟨s, rfl⟩
  | cons v vs ih =>
    rw [List.length_cons] at h
    obtain ⟨s1, hs1, hroom⟩ := hpush v s (by omega)
    obtain ⟨t, ht⟩ := ih s1 (by omega)
    exact ⟨t, by simpa [pushAll, hs1] using ht⟩

/-- One pop after `n` pops: its value comes last. -/
theorem popMany_succ_last {n : Nat} {t s1 s : State} {vs : List α} {v : α}
    (hmany : popMany pop n t = .ok vs s1) (hpop : pop s1 = .ok v s) :
    popMany pop (n + 1) t = .ok (vs ++ [v]) s := by
  induction n generalizing t vs with
  | zero =>
    obtain ⟨rfl, rfl⟩ : [] = vs ∧ t = s1 := by simpa [popMany] using hmany
    simp [popMany, hpop]
  | succ n ih =>
    rw [popMany] at hmany
    simp only [Res.andThen_eq_ok, Res.ok.injEq] at hmany
    obtain ⟨x, t1, hx, xs, t2, hxs, rfl, rfl⟩ := hmany
    rw [popMany, hx, Res.ok_andThen, ih hxs, Res.ok_andThen, List.cons_append]

/-- If a pop undoes a push, as many pops undo a sequence of pushes, and give its values in reverse order
(10_state.md R29). -/
theorem popMany_of_pushAll (hundo : ∀ v s t, push v s = .ok () t → pop t = .ok v s)
    {vs : List α} {s t : State} (h : pushAll push vs s = .ok () t) :
    popMany pop vs.length t = .ok vs.reverse s := by
  induction vs generalizing s with
  | nil =>
    obtain rfl : s = t := by simpa [pushAll] using h
    rfl
  | cons v vs ih =>
    rw [pushAll, Res.andThen_eq_ok] at h
    obtain ⟨_, s1, hv, hvs⟩ := h
    rw [List.reverse_cons]
    exact popMany_succ_last (ih hvs) (hundo v s s1 hv)

end Sequences

theorem pushAll_osPush_completes {s : State} {vs : List Word} (h : s.os.length + vs.length ≤ s.cfg.stackCap) :
    ∃ t, pushAll osPush vs s = .ok () t := by
  refine pushAll_completes (room := fun s => s.cfg.stackCap - s.os.length) (fun v s hroom => ?_) vs s (by omega)
  refine ⟨_, osPush_of_lt (by omega), ?_⟩
  simp only [State.setOs_cfg, State.setOs_os, List.length_cons]
  omega

theorem pushAll_fsPush_completes {s : State} {fs : List Frame} (h : s.fs.length + fs.length ≤ s.cfg.frameCap) :
    ∃ t, pushAll fsPush fs s = .ok () t := by
  refine pushAll_completes (room := fun s => s.cfg.frameCap - s.fs.length) (fun f s hroom => ?_) fs s (by omega)
  refine ⟨_, fsPush_of_lt (by omega), ?_⟩
  simp only [State.setFs_cfg, State.setFs_fs, List.length_cons]
  omega

end Sys2Proof.Machine
end

section
/-! Rules of the variable store (spec/10_state.md R22) and of STORE (spec/41_data.md R94). -/

namespace Sys2Proof.Machine

/-- A second write of the same cell leaves what it alone leaves: both stores are canonical and read the same. -/
theorem Memory.write_write_same {m : Memory} (h : Memory.wf m) (id w v : Word) :
    Memory.write (Memory.write m id w) id v = Memory.write m id v := by
  have hw : Memory.wf (Memory.write m id w) := Memory.wf_write h id w
  refine Memory.ext_of_read (Memory.wf_write hw id v) (Memory.wf_write h id v) fun other => ?_
  by_cases ho : other = id
  · rw [ho, Memory.read_write_same hw, Memory.read_write_same h]
  · simp only [Memory.read_write_other _ ho]

/-- STORE with an operand and a frame: the operand goes and the top frame is written (41_data.md R94). -/
theorem exec_store_of_cons {id v : Word} {s : State} {rest : List Word} {f : Frame} {frames : List Frame}
    (hos : s.os = v :: rest) (hfs : s.fs = f :: frames) :
    exec (.store id) s = .next (((s.advance 2).setOs rest).setTopFrame (varWrite f id v)) := by
  have hpop : osPop (s.advance 2) = .ok v ((s.advance 2).setOs rest) := osPop_cons hos
  have hpeek : fsPeek ((s.advance 2).setOs rest) = .ok f ((s.advance 2).setOs rest) := fsPeek_cons hfs
  simp only [exec, execStore, hpop, hpeek, Res.ok_andThen, conclude_ok]

end Sys2Proof.Machine
end

section
/-! The statements about the state (spec/10_state.md): the stacks and the variable store. -/

namespace Sys2Proof.Machine

/-- Settles O23: a pop undoes a push, and by induction over the pushes as many pops undo them all. -/
theorem lifoLawOfBothStacks : Obligations.LifoLawOfBothStacks := by
  refine ⟨fun s vs => ⟨fun h => ?_, fun h v => osPush_of_le h.ge, fun h => ⟨osPop_nil h, osPeek_nil h⟩,
      fun v t => osPeek_keeps_state⟩,
    fun s vs => ⟨fun h => ?_, fun h v => fsPush_of_le h.ge, fun h => ⟨fsPop_nil h, fsPeek_nil h⟩,
      fun v t => fsPeek_keeps_state⟩⟩
  · obtain ⟨t, ht⟩ := pushAll_osPush_completes h
    exact ⟨t, ht, popMany_of_pushAll (fun _ _ _ => osPop_of_osPush) ht⟩
  · obtain ⟨t, ht⟩ := pushAll_fsPush_completes h
    exact ⟨t, ht, popMany_of_pushAll (fun _ _ _ => fsPop_of_fsPush) ht⟩

/-- Settles O30, from the laws of the canonical store and what STORE does with a frame. -/
theorem variableWriteContract : Obligations.VariableWriteContract := by
  refine ⟨fun f id v hwf => ⟨Memory.read_write_same hwf id v, fun other ho => Memory.read_write_other v ho,
    varWrite_ra f id v, fun w => ?_⟩, fun id s t v rest hos hfs hexec => ?_⟩
  · simp only [varWrite, Memory.write_write_same hwf]
  · obtain ⟨f, frames, hcons⟩ := List.exists_cons_of_ne_nil hfs
    rw [exec_store_of_cons hos hcons, Host.Outcome.next.injEq] at hexec
    subst hexec
    simp [hcons]

/-- Settles O20, by the cases of room and of an element on the stack. -/
theorem operandStackOperationContracts : Obligations.OperandStackOperationContracts := by
  refine fun s v => ⟨fun hroom => ?_, osPush_of_le, fun hcap => osPush_of_le (by omega), fun hne => ?_, fun hz => ?_⟩
  · exact ⟨_, osPush_of_lt hroom, rfl, List.length_cons, BoundedStack.element_cons_length v s.os,
      fun k hk => BoundedStack.element_cons_of_lt v hk⟩
  · obtain ⟨x, rest, hos⟩ := List.exists_cons_of_length_pos (Nat.pos_of_ne_zero hne)
    refine ⟨s.setOs rest, x, osPop_cons hos, osPeek_cons hos, ?_, rfl, ?_, fun k hk => ?_⟩
    · simpa [hos] using BoundedStack.element_cons_length x rest
    · simp [hos]
    · rw [hos]
      exact (BoundedStack.element_cons_of_lt x hk).symm
  · have hnil : s.os = [] := List.length_eq_zero_iff.mp hz
    exact ⟨osPop_nil hnil, osPeek_nil hnil⟩

/-- Settles O22: an empty stack is where a pop underflows, a stack at its capacity where every push overflows. -/
theorem stackQueriesTellWhatSucceeds : Obligations.StackQueriesTellWhatSucceeds := by
  intro s
  have hempty : BoundedStack.isEmpty s.os = true ↔ s.os.length = 0 := beq_iff_eq
  have hfull : BoundedStack.isFull s.cfg.stackCap s.os = true ↔ s.os.length = s.cfg.stackCap := beq_iff_eq
  refine ⟨rfl, hempty, hfull, ?_, fun hcap => ?_⟩
  · rw [hempty, osPop_underflows_iff, List.length_eq_zero_iff]
  · simp only [hfull, osPush_overflows_iff, forall_const]
    omega

end Sys2Proof.Machine
end

section
/-! What leaves the configuration, and with it the instruction stream, as it was (spec/20_memory.md R42,
70_reset_and_hazards.md R170). -/

namespace Sys2Proof.Machine

/-- No instruction changes the configuration, whether it completes or faults. -/
theorem exec_keeps_cfg {i : Instr} {s t : State} (h : exec i s = .next t) : t.cfg = s.cfg := by
  rcases exec_next_cases i s t h with ⟨_, _, _, _, _, rfl, _⟩ | ⟨_, _, rfl, _⟩
  · rfl
  · rfl

theorem execInvalid_keeps_cfg {w : Word} {s t : State} (h : execInvalid w s = .next t) : t.cfg = s.cfg := by
  obtain rfl : (s.advance 1).emit .invalid w = t := by simpa [execInvalid] using h
  simp

/-- A fetch that raises has at most moved `ip` past the opcode slot (30_encoding.md R61, R63). -/
theorem fetchInstr_raised_keeps_cfg {s s1 : State} {c : Cause} (h : fetchInstr s = .raised c s1) :
    s1.cfg = s.cfg := by
  rcases fetchInstr_cases s with ⟨_, _, _, _, _, hf⟩ | ⟨_, _, _, _, _, _, _, hf⟩ | ⟨_, _, _, hf⟩ | ⟨_, hf⟩ |
    ⟨_, _, _, _, _, _, hf⟩ <;> cases hf.symm.trans h
  · rfl
  · exact State.advance_cfg s 1

theorem stepRunning_keeps_cfg {s t : State} (h : stepRunning s = .next t) : t.cfg = s.cfg := by
  cases hf : fetchInstr s with
  | instr i => exact exec_keeps_cfg (stepRunning_of_instr hf ▸ h)
  | invalid w => exact execInvalid_keeps_cfg (stepRunning_of_invalid hf ▸ h)
  | raised c s1 =>
    obtain rfl : raiseFault c s.ip s1 = t := by simpa [stepRunning_of_raised hf] using h
    simpa using fetchInstr_raised_keeps_cfg hf

theorem startReady_keeps_cfg (s : State) : (startReady s).cfg = s.cfg := by
  rcases startReady_cases s with ⟨_, h⟩ | ⟨_, h⟩ <;> simp [h]

/-- No step changes the configuration: neither the start event nor the step of a Running machine does, and there
is no step from Halted or Faulted. -/
theorem step_keeps_cfg {s t : State} (h : step s = .next t) : t.cfg = s.cfg := by
  cases hrs : s.rs with
  | ready =>
    obtain rfl : startReady s = t := by simpa [step_of_ready hrs, startEvent_of_ready hrs] using h
    exact startReady_keeps_cfg s
  | running => exact stepRunning_keeps_cfg (step_of_running hrs ▸ h)
  | halted => simp [step_of_halted hrs] at h
  | faulted => simp [step_of_faulted hrs] at h

end Sys2Proof.Machine
end

section
/-! The statement about the instruction stream (spec/20_memory.md). -/

namespace Sys2Proof.Machine

/-- Settles O14: the stream is part of the configuration, which every instruction and every step keeps. -/
theorem noStepWritesTheInstructionStream : Obligations.NoStepWritesTheInstructionStream := by
  refine ⟨fun i s t => exec_keeps_cfg, fun s t h => ?_⟩
  have hcfg : t.cfg = s.cfg := step_keeps_cfg h
  exact ⟨hcfg, fun a => by rw [hcfg]⟩

end Sys2Proof.Machine
end

section
/-! Rules of recognition and of the decoder (spec/30_encoding.md R62, R63, R65, R66), and of an invalid opcode's
step (spec/40_general.md R82). -/

namespace Sys2Proof

/-! ## Recognition -/

theorem recognise_eq_some_iff {xlen : Nat} {o : OpcodeMap} (h : o.WellFormed xlen) {w : Word} {m : Mnemonic} :
    recognise o w = some m ↔ w = o.word m :=
  ⟨word_of_recognise, fun hw => hw ▸ recognise_word h m⟩

/-- No injectivity is needed here: the search goes over all 24 mnemonics. -/
theorem recognise_eq_none_iff {o : OpcodeMap} {w : Word} : recognise o w = none ↔ ∀ m, w ≠ o.word m :=
  ⟨fun h m hw => List.find?_eq_none.mp h m (Mnemonic.mem_all m) (by simp [hw]),
    fun h => List.find?_eq_none.mpr fun m _ => by simpa using (h m).symm⟩

/-! ## The length of an instruction -/

theorem Mnemonic.format_eq_opImm_iff (m : Mnemonic) :
    m.format = .opImm ↔ m = .push ∨ m = .load ∨ m = .store := by
  cases m <;> decide

@[simp] theorem slots_assemble (m : Mnemonic) (imm : Word) : (assemble m imm).slots = m.format.slots := by
  simp [Instr.slots]

/-! ## The decoder, by what the opcode word is recognised as -/

section Decode

variable {o : OpcodeMap} {w : Word} {m : Mnemonic}

theorem decode_of_invalid (h : recognise o w = none) (rest : List Word) :
    decode o (w :: rest) = .error (.invalidOpcode w) := by
  simp [decode, h]

theorem decode_of_op (h : recognise o w = some m) (hf : m.format = .op) (rest : List Word) :
    decode o (w :: rest) = .ok (assemble m 0, rest) := by
  simp [decode, h, hf]

theorem decode_of_opImm (h : recognise o w = some m) (hf : m.format = .opImm) (imm : Word) (rest : List Word) :
    decode o (w :: imm :: rest) = .ok (assemble m imm, rest) := by
  simp [decode, h, hf]

end Decode

/-! ## The three opcodes with an immediate, as words -/

/-- The words that take a second slot are the opcodes whose format is `OP_IMM`. -/
theorem exists_opImm_word_iff {o : OpcodeMap} {w : Word} :
    (∃ m : Mnemonic, m.format = .opImm ∧ w = o.word m) ↔ w = o.push ∨ w = o.load ∨ w = o.store := by
  simp [Mnemonic.format_eq_opImm_iff, or_and_right, exists_or, OpcodeMap.word]

namespace Machine

/-- An invalid opcode is one slot and one event, in every state. -/
theorem execInvalid_eq (w : Word) (s : State) : execInvalid w s = .next ((s.advance 1).emit .invalid w) := rfl

end Machine

end Sys2Proof
end

section
/-! The statements about recognition and length (spec/30_encoding.md R62, R66). -/

namespace Sys2Proof

/-- Settles O4: recognition inverts the injective map, and the default map's two example words are evaluated. -/
theorem recogniseComparesWholeWord : Obligations.RecogniseComparesWholeWord := by
  refine ⟨fun xlen opc hopc w => ⟨fun m => ?_, ?_⟩, by decide, by decide⟩
  · exact recognise_eq_some_iff hopc
  · exact recognise_eq_none_iff

/-- Settles O5, by what the opcode word is recognised as: a mnemonic of either format, or none. -/
theorem lengthIsDecidedByOpcodeWord : Obligations.LengthIsDecidedByOpcodeWord := by
  intro xlen opc hopc w rest
  rw [← exists_opImm_word_iff]
  refine ⟨fun ⟨m, hf, hw⟩ imm => ?_, fun hno => ?_⟩
  · have hm : recognise opc w = some m := (recognise_eq_some_iff hopc).mpr hw
    exact ⟨assemble m imm, by simp [hf, Format.slots], decode_of_opImm hm hf imm rest⟩
  · cases hm : recognise opc w with
    | none => exact .inr ⟨decode_of_invalid hm rest, fun s => ⟨_, Machine.execInvalid_eq w s, rfl⟩⟩
    | some m =>
      cases hf : m.format with
      | op => exact .inl ⟨assemble m 0, by simp [hf, Format.slots], decode_of_op hm hf rest⟩
      | opImm => exact absurd ⟨m, hf, word_of_recognise hm⟩ hno

end Sys2Proof
end

section
/-! Rules of the two-operand form (spec/42_arithmetic.md R100, 43_logic.md R114, 44_comparison.md R120), of fault
entry after it (spec/60_exceptions.md R147, R148) and of the arithmetic instructions (spec/42_arithmetic.md). -/

namespace Sys2Proof.Machine

/-- With too few operands, those that are there are removed before the underflow. -/
theorem popTwo_of_length_le_one {s : State} (h : s.os.length ≤ 1) (k : Word → Word → State → Res Unit) :
    popTwo s k = .raised (.stackUnderflow .operand) (s.setOs []) := by
  rcases popTwo_cases s k with ⟨a, b, rest, hos, _⟩ | ⟨_, hraised⟩
  · simp [hos] at h
  · exact hraised

/-- An instruction that raises after its fetches and pops ends in the fault state of its cause. -/
theorem conclude_raised_setOs (c : Cause) (s : State) (n : Nat) (os' : List Word) :
    conclude s.ip (.raised c ((s.advance n).setOs os')) = .next (s.faultedAs c.kind c.sel (s.ip + n) os') := rfl

/-! ## The protocol of an arithmetic instruction, for any operation -/

section BinaryArith

variable {op : Configuration → Word → Word → Except ArithmeticCause Word} {s : State} {a b r : Word}
  {rest : List Word} {e : ArithmeticCause}

theorem conclude_binaryArith_underflow (h : s.os.length ≤ 1) :
    conclude s.ip (binaryArith op (s.advance 1)) =
      .next (s.faultedAs .stackUnderflow 0 (s.ip + 1) []) := by
  rw [binaryArith, popTwo_of_length_le_one (s := s.advance 1) h, conclude_raised_setOs]
  rfl

/-- The two pops make the room that the push of the result needs. -/
theorem conclude_binaryArith_of_ok (hos : s.os = b :: a :: rest) (hop : op s.cfg a b = .ok r)
    (hcap : s.os.length ≤ s.cfg.stackCap) :
    conclude s.ip (binaryArith op (s.advance 1)) = .next { s with ip := s.ip + 1, os := r :: rest } := by
  have hroom : rest.length < s.cfg.stackCap := by
    simp only [hos, List.length_cons] at hcap
    omega
  have hpush : osPush r ((s.advance 1).setOs rest) = .ok () ((s.advance 1).setOs (r :: rest)) :=
    osPush_of_lt hroom
  rw [binaryArith, popTwo_cons (s := s.advance 1) hos, State.setOs_cfg, State.advance_cfg, hop, liftAlu,
    Res.ok_andThen, hpush, conclude_ok]
  rfl

theorem conclude_binaryArith_of_error (hos : s.os = b :: a :: rest) (hop : op s.cfg a b = .error e) :
    conclude s.ip (binaryArith op (s.advance 1)) =
      .next (s.faultedAs .arithmeticFault (Cause.arithmeticFault e).sel (s.ip + 1) rest) := by
  rw [binaryArith, popTwo_cons (s := s.advance 1) hos, State.setOs_cfg, State.advance_cfg, hop, liftAlu,
    Res.raised_andThen, conclude_raised_setOs]
  rfl

end BinaryArith

/-! ## The five instructions and their operations -/

/-- Each of the five is the one protocol with its own operation. -/
theorem exec_arithmetic {p : Instr × (Configuration → Word → Word → Except ArithmeticCause Word)}
    (hp : p ∈ [(Instr.add, aluAdd), (.sub, aluSub), (.mul, aluMul), (.div, aluDiv), (.mod, aluMod)]) (s : State) :
    exec p.1 s = conclude s.ip (binaryArith p.2 (s.advance 1)) := by
  simp only [List.mem_cons, List.not_mem_nil, or_false] at hp
  rcases hp with rfl | rfl | rfl | rfl | rfl <;> rfl

theorem aluDiv_zero (c : Configuration) (a : Word) : aluDiv c a 0 = .error .zeroDivisor := if_pos rfl

theorem aluMod_zero (c : Configuration) (a : Word) : aluMod c a 0 = .error .zeroDivisor := if_pos rfl

end Sys2Proof.Machine
end

section
/-! The statements about the arithmetic instructions (spec/42_arithmetic.md R100, R107). -/

namespace Sys2Proof.Machine

/-- Settles O32: the five share one protocol, so its cases are those of the operands and of the operation's answer. -/
theorem arithmeticProtocol : Obligations.ArithmeticProtocol := by
  intro p hp s
  rw [exec_arithmetic hp s]
  refine ⟨fun hos => ?_, fun b hos => ?_, fun a b rest hos => ⟨fun r hok hcap => ?_, fun hzero => ?_, fun hover => ?_⟩⟩
  · exact conclude_binaryArith_underflow (by simp [hos])
  · exact conclude_binaryArith_underflow (by simp [hos])
  · exact conclude_binaryArith_of_ok hos hok hcap
  · exact conclude_binaryArith_of_error hos hzero
  · exact conclude_binaryArith_of_error hos hover

/-- Settles O35: for the divisor 0 the operation raises before it looks at the dividend or at the policy. -/
theorem zeroDivisorAlwaysFaults : Obligations.ZeroDivisorAlwaysFaults := by
  intro s a rest hos
  rw [exec_arithmetic (p := (.div, aluDiv)) (by simp) s, exec_arithmetic (p := (.mod, aluMod)) (by simp) s]
  exact ⟨conclude_binaryArith_of_error hos (aluDiv_zero s.cfg a),
    conclude_binaryArith_of_error hos (aluMod_zero s.cfg a)⟩

end Sys2Proof.Machine
end

section
/-! The results of the logic and comparison instructions (spec/43_logic.md R113 to R116, 44_comparison.md R120). -/

namespace Sys2Proof.Machine

/-- A course of an instruction that, where it does not raise, leaves 0 or 1 on top of the operand stack. -/
def Res.LeavesZeroOrOne (r : Res Unit) : Prop :=
  ∀ t : State, r = .ok () t → ∃ (v : Word) (rest : List Word), t.os = v :: rest ∧ (v = 0 ∨ v = 1)

/-- Every outcome of the nine instructions is `asInt` of a truth value. -/
theorem osPush_asInt_leavesZeroOrOne (c : Bool) (s : State) : (osPush (asInt c) s).LeavesZeroOrOne := by
  intro t h
  rcases osPush_cases (asInt c) s with ⟨_, hok⟩ | ⟨_, hraised⟩
  · obtain rfl : s.setOs (asInt c :: s.os) = t := by simpa [hok] using h
    exact ⟨asInt c, s.os, State.setOs_os .., asInt_zero_or_one c⟩
  · simp [hraised] at h

/-- Only the last part of a sequence matters. -/
theorem Res.andThen_leavesZeroOrOne {α : Type} (r : Res α) {k : α → State → Res Unit}
    (hk : ∀ a s, (k a s).LeavesZeroOrOne) : (r.andThen k).LeavesZeroOrOne := by
  intro t h
  obtain ⟨a, s, _, hlast⟩ := Res.andThen_eq_ok.mp h
  exact hk a s t hlast

theorem popTwo_leavesZeroOrOne (s : State) {k : Word → Word → State → Res Unit}
    (hk : ∀ a b s', (k a b s').LeavesZeroOrOne) : (popTwo s k).LeavesZeroOrOne :=
  Res.andThen_leavesZeroOrOne _ fun b _ => Res.andThen_leavesZeroOrOne _ fun a => hk a b

/-- A comparison whose opcode has a relation pushes that relation's truth value (44_comparison.md R120). -/
theorem evalCompare_leavesZeroOrOne {m : Mnemonic} {rel : Relation} (hm : relationSelect m = some rel) (s : State) :
    (evalCompare m s).LeavesZeroOrOne := by
  rw [evalCompare_of_some hm]
  exact popTwo_leavesZeroOrOne s fun a b => osPush_asInt_leavesZeroOrOne (rel.holds a b)

/-- Each of the nine concludes a course that leaves 0 or 1. -/
theorem exec_eq_conclude_leavesZeroOrOne {i : Instr}
    (hi : i ∈ [Instr.not, .and, .or, .cmpE, .cmpNe, .cmpG, .cmpGe, .cmpL, .cmpLe]) (s : State) :
    ∃ r : Res Unit, exec i s = conclude s.ip r ∧ r.LeavesZeroOrOne := by
  simp only [List.mem_cons, List.not_mem_nil, or_false] at hi
  rcases hi with rfl | rfl | rfl | rfl | rfl | rfl | rfl | rfl | rfl
  · exact ⟨_, rfl, Res.andThen_leavesZeroOrOne _ fun a => osPush_asInt_leavesZeroOrOne (decide (a = 0))⟩
  · exact ⟨_, rfl, popTwo_leavesZeroOrOne _ fun a b => osPush_asInt_leavesZeroOrOne (asBool a && asBool b)⟩
  · exact ⟨_, rfl, popTwo_leavesZeroOrOne _ fun a b => osPush_asInt_leavesZeroOrOne (asBool a || asBool b)⟩
  · exact ⟨_, rfl, evalCompare_leavesZeroOrOne (rel := .e) rfl _⟩
  · exact ⟨_, rfl, evalCompare_leavesZeroOrOne (rel := .ne) rfl _⟩
  · exact ⟨_, rfl, evalCompare_leavesZeroOrOne (rel := .g) rfl _⟩
  · exact ⟨_, rfl, evalCompare_leavesZeroOrOne (rel := .ge) rfl _⟩
  · exact ⟨_, rfl, evalCompare_leavesZeroOrOne (rel := .l) rfl _⟩
  · exact ⟨_, rfl, evalCompare_leavesZeroOrOne (rel := .le) rfl _⟩

/-- Fault entry leaves Running, so an instruction that ends Running has not raised (60_exceptions.md R147). -/
theorem ok_of_conclude_running {cur : Word} {r : Res Unit} {t : State} (h : conclude cur r = .next t)
    (hrun : t.rs = .running) : r = .ok () t := by
  rcases conclude_eq_next h with hok | ⟨c, s, _, rfl⟩
  · exact hok
  · simp at hrun

end Sys2Proof.Machine
end

section
/-! The statement about the logic instructions (spec/43_logic.md R116). -/

namespace Sys2Proof.Machine

/-- Settles O41: an instruction that ends Running has completed, and each of the nine completes by pushing the
word of a truth value. -/
theorem logicAndComparisonResultsAreZeroOrOne : Obligations.LogicAndComparisonResultsAreZeroOrOne := by
  intro i hi s t _ h hrun
  obtain ⟨r, hexec, hleaves⟩ := exec_eq_conclude_leavesZeroOrOne hi s
  exact hleaves t (ok_of_conclude_running (hexec ▸ h) hrun)

end Sys2Proof.Machine
end

section
/-! Rules of the comparison instructions (spec/44_comparison.md R120 to R126). -/

namespace Sys2Proof.Machine

/-- Each of the six hands its own opcode to the relation evaluator. -/
theorem exec_comparison {i : Instr} (hi : i ∈ [Instr.cmpE, .cmpNe, .cmpG, .cmpGe, .cmpL, .cmpLe]) (s : State) :
    exec i s = conclude s.ip (evalCompare i.mnemonic (s.advance 1)) := by
  simp only [List.mem_cons, List.not_mem_nil, or_false] at hi
  rcases hi with rfl | rfl | rfl | rfl | rfl | rfl <;> rfl

/-- The two pops come before the relation is selected, so a shortage is the same for every opcode. -/
theorem conclude_evalCompare_underflow {s : State} (h : s.os.length ≤ 1) (m : Mnemonic) :
    conclude s.ip (evalCompare m (s.advance 1)) = .next (s.faultedAs .stackUnderflow 0 (s.ip + 1) []) := by
  rw [evalCompare, popTwo_of_length_le_one (s := s.advance 1) h, conclude_raised_setOs]
  rfl

/-- Once a relation is selected, the comparison is the two-operand protocol with an operation that never raises. -/
theorem evalCompare_eq_binaryArith {m : Mnemonic} {rel : Relation} (hm : relationSelect m = some rel) (s : State) :
    evalCompare m s = binaryArith (fun _ a b => .ok (asInt (rel.holds a b))) s :=
  evalCompare_of_some hm s

theorem asInt_decide (p : Prop) [Decidable p] : asInt (decide p) = if p then 1 else 0 := by
  simp [asInt]

/-- With both operands a comparison replaces them by 1 or 0, as the proposition `p` that its relation decides
holds or not. -/
theorem conclude_evalCompare_of_cons {m : Mnemonic} {rel : Relation} {s : State} {a b : Word} {rest : List Word}
    {p : Prop} [Decidable p] (hm : relationSelect m = some rel) (hp : rel.holds a b = decide p)
    (hos : s.os = b :: a :: rest) (hcap : s.os.length ≤ s.cfg.stackCap) :
    conclude s.ip (evalCompare m (s.advance 1)) =
      .next { s with ip := s.ip + 1, os := (if p then 1 else 0) :: rest } := by
  rw [evalCompare_eq_binaryArith hm, conclude_binaryArith_of_ok hos rfl hcap, hp, asInt_decide]

end Sys2Proof.Machine
end

section
/-! The statement about the comparison instructions (spec/44_comparison.md R120). -/

namespace Sys2Proof.Machine

/-- Settles O40: the six share one protocol, each with the relation that is selected from its opcode. -/
theorem comparisonProtocol : Obligations.ComparisonProtocol := by
  refine fun s hcap => ⟨fun a b rest hos => ⟨?_, ?_, ?_, ?_, ?_, ?_⟩, fun i hi => ?_⟩
  · exact conclude_evalCompare_of_cons (m := .cmpE) (rel := .e) rfl rfl hos hcap
  · exact conclude_evalCompare_of_cons (m := .cmpNe) (rel := .ne) rfl rfl hos hcap
  · exact conclude_evalCompare_of_cons (m := .cmpG) (rel := .g) rfl rfl hos hcap
  · exact conclude_evalCompare_of_cons (m := .cmpGe) (rel := .ge) rfl rfl hos hcap
  · exact conclude_evalCompare_of_cons (m := .cmpL) (rel := .l) rfl rfl hos hcap
  · exact conclude_evalCompare_of_cons (m := .cmpLe) (rel := .le) rfl rfl hos hcap
  · rw [exec_comparison hi]
    refine ⟨fun hos => ?_, fun b hos => ?_⟩
    · exact conclude_evalCompare_underflow (by simp [hos]) i.mnemonic
    · exact conclude_evalCompare_underflow (by simp [hos]) i.mnemonic

end Sys2Proof.Machine
end

section
/-! Where an instruction leaves `ip` (spec/45_control_flow.md R130, R131, R134). -/

namespace Sys2Proof

/-- The length as one case distinction on the mnemonics of format `OP_IMM` (30_encoding.md R60, R66). -/
theorem Instr.slots_eq_ite (i : Instr) :
    i.slots = if i.mnemonic ∈ [Mnemonic.push, .load, .store] then 2 else 1 := by
  simp only [List.mem_cons, List.not_mem_nil, or_false, ← Mnemonic.format_eq_opImm_iff, Instr.slots]
  cases i.mnemonic.format <;> rfl

namespace Machine

/-! ## Completion and fault entry -/

section NextState

variable {i : Instr} {s t : State}

theorem CompletesTo.ip_eq (h : CompletesTo i s t) (hjmp : i ≠ .jmp) (hjif : i ≠ .jif) :
    t.ip = s.ip + i.slots := by
  obtain ⟨_, _, _, _, _, rfl, _, hip, _⟩ := h
  exact hip hjmp hjif

theorem CompletesTo.rs_eq (h : CompletesTo i s t) (hhalt : i ≠ .halt) : t.rs = s.rs := by
  obtain ⟨_, _, _, _, _, rfl, _, _, ⟨_, hrs⟩ | ⟨hi, _⟩, _⟩ := h
  · exact hrs
  · exact absurd hi hhalt

/-- Fault entry comes after the fetches of all slots and moves `ip` no further, for the jumps too. -/
theorem FaultsTo.ip_eq (h : FaultsTo i s t) : t.ip = s.ip + i.slots := by
  obtain ⟨_, _, rfl, _⟩ := h
  exact raiseFault_ip ..

theorem exec_ip_of_not_jump (hjmp : i ≠ .jmp) (hjif : i ≠ .jif) (h : exec i s = .next t) :
    t.ip = s.ip + i.slots := by
  rcases exec_next_cases i s t h with hcompletes | hfaults
  · exact hcompletes.ip_eq hjmp hjif
  · exact hfaults.ip_eq

/-- An instruction that ends Faulted without having begun so has faulted: completion sets no run state but
Halted. -/
theorem exec_ip_of_faulted (hhalt : i ≠ .halt) (hs : s.rs ≠ .faulted) (h : exec i s = .next t)
    (ht : t.rs = .faulted) : t.ip = s.ip + i.slots := by
  rcases exec_next_cases i s t h with hcompletes | hfaults
  · exact absurd (hcompletes.rs_eq hhalt ▸ ht) hs
  · exact hfaults.ip_eq

end NextState

/-! ## The two jumps -/

/-- JMP with an element sets `ip` in its own step, to whatever the element is (45_control_flow.md R130, R132). -/
theorem exec_jmp_of_cons {s : State} {target : Word} {rest : List Word} (hos : s.os = target :: rest) :
    exec .jmp s = .next (((s.advance 1).setOs rest).setIp target) := by
  have hpop : osPop (s.advance 1) = .ok target ((s.advance 1).setOs rest) := osPop_cons hos
  simp only [exec, execJmp, hpop, Res.ok_andThen, conclude_ok]

/-- JIF with the condition 0 pops it and nothing more (45_control_flow.md R131). -/
theorem exec_jif_of_zero {s : State} {rest : List Word} (hos : s.os = 0 :: rest) :
    exec .jif s = .next ((s.advance 1).setOs rest) := by
  have hpop : osPop (s.advance 1) = .ok 0 ((s.advance 1).setOs rest) := osPop_cons hos
  simp [exec, execJif, hpop, asBool]

end Machine

end Sys2Proof
end

section
/-! The statement about the advance of `ip` (spec/45_control_flow.md R134). -/

namespace Sys2Proof.Machine

/-- Settles O45: an instruction that is no jump leaves `ip` after its slots, and so does fault entry; a JIF not
taken and a JMP that completes are evaluated. -/
theorem sequentialAdvanceOfIp : Obligations.SequentialAdvanceOfIp := by
  refine ⟨fun i s t hjmp hjif h => ?_, fun w s t h => ?_, fun s t rest hos h => ?_,
    fun i hi s t hs h ht => ?_, fun s t target rest hos h => ?_⟩
  · rw [exec_ip_of_not_jump hjmp hjif h, Instr.slots_eq_ite]
    split <;> rfl
  · obtain rfl : (s.advance 1).emit .invalid w = t := by simpa [execInvalid_eq] using h
    simp
  · obtain rfl : (s.advance 1).setOs rest = t := by simpa [exec_jif_of_zero hos] using h
    simp
  · simp only [List.mem_cons, List.not_mem_nil, or_false] at hi
    rcases hi with rfl | rfl
    · exact exec_ip_of_faulted (by simp) hs h ht
    · exact exec_ip_of_faulted (by simp) hs h ht
  · obtain rfl : ((s.advance 1).setOs rest).setIp target = t := by simpa [exec_jmp_of_cons hos] using h
    simp

end Sys2Proof.Machine
end

section
/-! Rules of the encoder (spec/30_encoding.md R60, R64), of the decoder read backwards (R62, R63, R65), and of the
opcode table's bits (assumption log 22). -/

namespace Sys2Proof

/-! ## The words of an instruction -/

theorem Instr.format_eq_op_iff (i : Instr) : i.mnemonic.format = .op ↔ i.immediate = none := by
  cases i <;> simp [Instr.mnemonic, Mnemonic.format, Instr.immediate]

theorem Instr.format_eq_opImm {i : Instr} {v : Word} (h : i.immediate = some v) : i.mnemonic.format = .opImm := by
  cases hf : i.mnemonic.format with
  | op => simp [(Instr.format_eq_op_iff i).mp hf] at h
  | opImm => rfl

theorem encode_of_no_immediate {i : Instr} (h : i.immediate = none) (o : OpcodeMap) :
    encode o i = [o.word i.mnemonic] := by
  simp [encode, h]

theorem encode_of_immediate {i : Instr} {v : Word} (h : i.immediate = some v) (o : OpcodeMap) :
    encode o i = [o.word i.mnemonic, v] := by
  simp [encode, h]

theorem encode_assemble_op {m : Mnemonic} (hf : m.format = .op) (imm : Word) (o : OpcodeMap) :
    encode o (assemble m imm) = [o.word m] := by
  rw [encode_of_no_immediate (by simp [immediate_assemble, hf]), mnemonic_assemble]

theorem encode_assemble_opImm {m : Mnemonic} (hf : m.format = .opImm) (imm : Word) (o : OpcodeMap) :
    encode o (assemble m imm) = [o.word m, imm] := by
  rw [encode_of_immediate (v := imm) (by simp [immediate_assemble, hf]), mnemonic_assemble]

/-! ## Decoding -/

/-- The decoder reads back the words of every instruction: its opcode word is recognised under an injective map. -/
theorem decode_encode {xlen : Nat} {o : OpcodeMap} (ho : o.WellFormed xlen) (i : Instr) (rest : List Word) :
    decode o (encode o i ++ rest) = .ok (i, rest) := by
  have hrec : recognise o (o.word i.mnemonic) = some i.mnemonic := recognise_word ho i.mnemonic
  have hback : assemble i.mnemonic (i.immediate.getD 0) = i := assemble_mnemonic i 0
  cases himm : i.immediate with
  | none =>
    rw [himm, Option.getD_none] at hback
    rw [encode_of_no_immediate himm, List.singleton_append,
      decode_of_op hrec ((Instr.format_eq_op_iff i).mpr himm), hback]
  | some v =>
    rw [himm, Option.getD_some] at hback
    rw [encode_of_immediate himm, List.cons_append, List.singleton_append,
      decode_of_opImm hrec (Instr.format_eq_opImm himm), hback]

/-- What the decoder can have read when it gives an instruction: an opcode alone, or an opcode and the slot after
it, as the format of the recognised mnemonic says. -/
theorem decode_eq_ok_cases {o : OpcodeMap} {ws rest : List Word} {i : Instr} (h : decode o ws = .ok (i, rest)) :
    (∃ w m, recognise o w = some m ∧ m.format = .op ∧ ws = w :: rest ∧ i = assemble m 0) ∨
    (∃ w m imm, recognise o w = some m ∧ m.format = .opImm ∧ ws = w :: imm :: rest ∧ i = assemble m imm) := by
  cases ws with
  | nil => simp [decode] at h
  | cons w tail =>
    cases hm : recognise o w with
    | none => simp [decode_of_invalid hm] at h
    | some m =>
      cases hf : m.format with
      | op =>
        obtain ⟨rfl, rfl⟩ : assemble m 0 = i ∧ tail = rest := by simpa [decode_of_op hm hf] using h
        exact .inl ⟨w, m, hm, hf, rfl, rfl⟩
      | opImm =>
        cases tail with
        | nil => simp [decode, hm, hf] at h
        | cons imm tail =>
          obtain ⟨rfl, rfl⟩ : assemble m imm = i ∧ tail = rest := by simpa [decode_of_opImm hm hf] using h
          exact .inr ⟨w, m, imm, hm, hf, rfl, rfl⟩

/-! ## The table's bits -/

theorem bitsOfWord_lt (xlen : Nat) (v : Word) : bitsOfWord xlen v < 2 ^ xlen := by
  have hpos : (0 : Int) < ((2 ^ xlen : Nat) : Int) := by exact_mod_cast Nat.two_pow_pos xlen
  have hlt := Int.emod_lt_of_pos v hpos
  have hge := Int.emod_nonneg v hpos.ne'
  unfold bitsOfWord
  omega

@[simp] theorem bitsOfWord_zero (xlen : Nat) : bitsOfWord xlen 0 = 0 := by simp [bitsOfWord]

/-- Two slots keep the words whose bits they hold. -/
theorem slotsOfBits_of_words {xlen : Nat} (hx : 1 ≤ xlen) {v w : Word} (hv : InRange xlen v)
    (hw : InRange xlen w) :
    slotsOfBits xlen (2 * xlen) (bitsOfWord xlen v + 2 ^ xlen * bitsOfWord xlen w) = [v, w] := by
  have hbv := bitsOfWord_lt xlen v
  have hbw := bitsOfWord_lt xlen w
  have hfits : bitsOfWord xlen v + 2 ^ xlen * bitsOfWord xlen w < 2 ^ (2 * xlen) := by
    rw [two_mul, pow_add]
    nlinarith
  have hhigh : (bitsOfWord xlen v + 2 ^ xlen * bitsOfWord xlen w) / 2 ^ xlen = bitsOfWord xlen w := by
    rw [Nat.add_mul_div_left _ _ (Nat.two_pow_pos xlen), Nat.div_eq_of_lt hbv, Nat.zero_add]
  have hword : wordOfBits xlen (bitsOfWord xlen w) = w := wordOfBits_bitsOfWord hx hw 0
  simp only [slotsOfBits, Nat.mod_eq_of_lt hfits, hhigh, wordOfBits_bitsOfWord hx hv, hword]

/-- In the table's numbering a missing immediate counts as the word 0. -/
theorem bitsOfSlots_encode (xlen : Nat) (o : OpcodeMap) (i : Instr) :
    bitsOfSlots xlen (encode o i) =
      bitsOfWord xlen (o.word i.mnemonic) + 2 ^ xlen * bitsOfWord xlen (i.immediate.getD 0) := by
  cases himm : i.immediate with
  | none => simp [encode_of_no_immediate himm, bitsOfSlots]
  | some v => simp [encode_of_immediate himm, bitsOfSlots]

theorem inRange_immediate_getD {xlen : Nat} {i : Instr} (h : i.wellFormed xlen = true) :
    InRange xlen (i.immediate.getD 0) := by
  cases himm : i.immediate with
  | none => exact Machine.inRange_zero xlen
  | some v => simpa [Instr.wellFormed, himm] using h

theorem exists_encode_append (o : OpcodeMap) (i : Instr) :
    ∃ rest, [o.word i.mnemonic, i.immediate.getD 0] = encode o i ++ rest := by
  cases himm : i.immediate with
  | none => exact ⟨[0], by simp [encode_of_no_immediate himm]⟩
  | some v => exact ⟨[], by simp [encode_of_immediate himm]⟩

/-! ## The default map -/

theorem OpcodeMap.standard_wellFormed : OpcodeMap.standard.WellFormed 64 := by decide

/-- The default values are 0 to 23, in the order of the table (92_eei_decisions.md D1). -/
theorem OpcodeMap.exists_standard_word_iff (w : Int) :
    (∃ m, w = OpcodeMap.standard.word m) ↔ 0 ≤ w ∧ w ≤ 23 := by
  have hall : Mnemonic.all.map OpcodeMap.standard.word = (List.range 24).map Nat.cast := by decide
  have hmem : (∃ m, w = OpcodeMap.standard.word m) ↔ w ∈ Mnemonic.all.map OpcodeMap.standard.word := by
    simp [Mnemonic.mem_all, eq_comm]
  rw [hmem, hall, List.mem_map]
  refine ⟨?_, fun ⟨h0, h23⟩ => ⟨w.toNat, ?_, Int.toNat_of_nonneg h0⟩⟩
  · rintro ⟨n, hn, rfl⟩
    rw [List.mem_range] at hn
    omega
  · rw [List.mem_range]
    omega

end Sys2Proof
end

section
/-! The statements about encoding and decoding (spec/30_encoding.md R60 to R65). -/

namespace Sys2Proof

/-- Settles O1: the opcode word is recognised as the mnemonic alone, whose format says how many slots to take. -/
theorem decodeOfEncodeIsIdentity : Obligations.DecodeOfEncodeIsIdentity :=
  fun _ _ ho i rest => decode_encode ho i rest

/-- Settles O2, by the format of the mnemonic that was recognised. -/
theorem encodeOfDecodeIsIdentity : Obligations.EncodeOfDecodeIsIdentity := by
  intro o ws i rest h
  rcases decode_eq_ok_cases h with ⟨w, m, hm, hf, rfl, rfl⟩ | ⟨w, m, imm, hm, hf, rfl, rfl⟩
  · simp [encode_assemble_op hf, word_of_recognise hm]
  · simp [encode_assemble_opImm hf, word_of_recognise hm]

/-- Settles O3: the two slots hold the opcode word and the immediate, or 0 after an instruction that has none. -/
theorem tableBitsOfEncodingDecode : Obligations.TableBitsOfEncodingDecode := by
  intro i hi
  have hop : InRange 64 (OpcodeMap.standard.word i.mnemonic) :=
    OpcodeMap.standard_wellFormed.2 _ (Mnemonic.mem_all i.mnemonic)
  have hslots := slotsOfBits_of_words (by decide) hop (inRange_immediate_getD hi)
  obtain ⟨rest, hrest⟩ := exists_encode_append OpcodeMap.standard i
  rw [← bitsOfSlots_encode, hrest] at hslots
  unfold decodeTableWord
  rw [show slotsOfBits Config.defaultXlen 128 _ = _ from hslots, decode_encode OpcodeMap.standard_wellFormed]

/-- Settles O6: the words that some mnemonic has are 0 to 23. -/
theorem defaultInvalidOpcodesAreOutsideTheTable : Obligations.DefaultInvalidOpcodesAreOutsideTheTable := by
  intro w
  rw [recognise_eq_none_iff, ← not_exists, OpcodeMap.exists_standard_word_iff]
  unfold Word at *
  omega

/-- Settles O7: eight literal words of the table, each evaluated. -/
theorem tableWordsDecodeToTheirInstructions : Obligations.TableWordsDecodeToTheirInstructions := by
  unfold Obligations.TableWordsDecodeToTheirInstructions
  decide

end Sys2Proof
end

section
/-! Rules of the ALU (spec/00_scope.md R4, 42_arithmetic.md R101 to R109): the wrapped word is the one congruent
word, the laws of truncating division, and the answers of the five operations. -/

namespace Sys2Proof.Machine

/-! ## Words -/

/-- Two words that are congruent to `z` are one (00_scope.md R4). -/
theorem eq_wrap_of_dvd {xlen : Nat} (hx : 1 ≤ xlen) {w z : Int} (hw : InRange xlen w)
    (hd : ((2 ^ xlen : Nat) : Int) ∣ z - w) : w = wrap xlen z := by
  have h2 := two_pow_xlen hx
  obtain ⟨hmin, hmax⟩ := hw
  simp only [minWord, maxWord] at hmin hmax
  refine ((Int.bmod_eq_iff (Nat.two_pow_pos xlen)).mpr ⟨?_, ?_, dvd_sub_comm.mp hd⟩).symm <;> omega

/-- An integer of at most half a word's magnitude is a word. -/
theorem inRange_of_two_mul_natAbs_le {xlen : Nat} {a z : Int} (ha : InRange xlen a)
    (h : 2 * z.natAbs ≤ a.natAbs) : InRange xlen z := by
  have hmin := minWord_eq xlen
  have hmax := zero_le_maxWord xlen
  obtain ⟨hmin', hmax'⟩ := ha
  constructor <;> omega

/-- An integer of less than a word's magnitude is a word. -/
theorem inRange_of_natAbs_lt {xlen : Nat} {b z : Int} (hb : InRange xlen b) (h : z.natAbs < b.natAbs) :
    InRange xlen z := by
  have hmin := minWord_eq xlen
  obtain ⟨hmin', hmax'⟩ := hb
  constructor <;> omega

/-! ## Truncating division -/

/-- The remainder of the spec's formula is the integers' truncating remainder (42_arithmetic.md R108). -/
theorem tmod_eq (a b : Int) : tmod a b = Int.tmod a b := by
  rw [tmod, tdiv_eq, Int.tmod_def, mul_comm]

theorem natAbs_tdiv (a b : Int) : (tdiv a b).natAbs = a.natAbs / b.natAbs := by
  rw [tdiv_eq, Int.natAbs_tdiv]
  rfl

theorem natAbs_tmod_lt (a : Int) {b : Int} (hb : b ≠ 0) : (tmod a b).natAbs < b.natAbs := by
  rw [tmod_eq, Int.natAbs_tmod]
  exact Nat.mod_lt _ (Int.natAbs_pos.mpr hb)

theorem tmod_eq_zero_or_sign_eq (a b : Int) : tmod a b = 0 ∨ (tmod a b).sign = a.sign := by
  rw [tmod_eq]
  by_cases h : b ∣ a
  · exact .inl (Int.tmod_eq_zero_of_dvd h)
  · exact .inr (by rw [Int.sign_tmod, if_neg h])

theorem tdiv_nonneg {a b : Int} (h : 0 ≤ a * b) : 0 ≤ tdiv a b := by
  rw [tdiv, ← Int.sign_mul]
  exact mul_nonneg (Int.sign_nonneg_iff.mpr h) (Int.natCast_nonneg _)

theorem tdiv_nonpos {a b : Int} (h : a * b ≤ 0) : tdiv a b ≤ 0 := by
  rw [tdiv, ← Int.sign_mul]
  exact mul_nonpos_of_nonpos_of_nonneg (Int.sign_nonpos_iff.mpr h) (Int.natCast_nonneg _)

theorem inRange_tmod {xlen : Nat} (a : Int) {b : Int} (hb : InRange xlen b) (h0 : b ≠ 0) :
    InRange xlen (tmod a b) :=
  inRange_of_natAbs_lt hb (natAbs_tmod_lt a h0)

theorem tdiv_neg_one (a : Int) : tdiv a (-1) = -a := by
  rw [tdiv_eq, Int.tdiv_neg, Int.tdiv_one]

theorem tmod_neg_one (a : Int) : tmod a (-1) = 0 := by
  rw [tmod, tdiv_neg_one]
  ring

/-- The divisors 1 and -1 keep the magnitude and every other halves it at least, so -MIN is the one quotient that
is no word (42_arithmetic.md R109). -/
theorem not_inRange_tdiv_iff {xlen : Nat} {a b : Int} (ha : InRange xlen a) (hb : b ≠ 0) :
    ¬ InRange xlen (tdiv a b) ↔ a = minWord xlen ∧ b = -1 := by
  have hmin := minWord_eq xlen
  rcases Nat.lt_or_ge b.natAbs 2 with h1 | h2
  · obtain rfl | rfl : b = 1 ∨ b = -1 := by omega
    · have hone : tdiv a 1 = a := by rw [tdiv_eq, Int.tdiv_one]
      simp [hone, ha]
    · rw [tdiv_neg_one]
      obtain ⟨hmin', hmax'⟩ := ha
      unfold InRange
      omega
  · have hhalf : InRange xlen (tdiv a b) := by
      refine inRange_of_two_mul_natAbs_le ha ?_
      rw [natAbs_tdiv]
      have hle : a.natAbs / b.natAbs ≤ a.natAbs / 2 := Nat.div_le_div_left h2 (by omega)
      omega
    exact iff_of_false (not_not.mpr hhalf) (by omega)

/-! ## The answers of the operations -/

section Answers

variable {c : Configuration} {a b z : Int}

theorem narrow_of_inRange (hx : 1 ≤ c.xlen) (h : InRange c.xlen z) : narrow c z = .ok z := by
  have hno : ¬ ((z < minWord c.xlen ∨ maxWord c.xlen < z) ∧ c.policy = .fault) := by
    obtain ⟨hmin, hmax⟩ := h
    omega
  rw [narrow, if_neg hno, wrap_of_inRange hx h]

theorem narrow_of_wrap (h : c.policy = .wrap) (z : Int) : narrow c z = .ok (wrap c.xlen z) := by
  simp [narrow, h]

theorem narrow_of_fault (h : c.policy = .fault) (hz : ¬ InRange c.xlen z) : narrow c z = .error .overflow := by
  have hout : z < minWord c.xlen ∨ maxWord c.xlen < z := by
    unfold InRange at hz
    omega
  rw [narrow, if_pos ⟨hout, h⟩]

theorem aluDiv_of_inRange (hx : 1 ≤ c.xlen) (hb : b ≠ 0) (h : InRange c.xlen (tdiv a b)) :
    aluDiv c a b = .ok (tdiv a b) := by
  rw [aluDiv, if_neg hb, if_neg (fun hover => not_lt.mpr h.2 hover.1), wrap_of_inRange hx h]

theorem aluMod_of_not_min (hb : b ≠ 0) (h : ¬ (a = minWord c.xlen ∧ b = -1)) : aluMod c a b = .ok (tmod a b) := by
  rw [aluMod, if_neg hb, if_neg (fun hover => h ⟨hover.1, hover.2.1⟩)]

/-- `-MIN` wraps to `MIN` (42_arithmetic.md R109). -/
theorem aluDiv_min_of_wrap (hx : 1 ≤ c.xlen) (h : c.policy = .wrap) :
    aluDiv c (minWord c.xlen) (-1) = .ok (minWord c.xlen) := by
  have hwrap : minWord c.xlen = wrap c.xlen (-minWord c.xlen) := by
    refine eq_wrap_of_dvd hx ⟨le_rfl, (minWord_le_zero _).trans (zero_le_maxWord _)⟩ ⟨1, ?_⟩
    rw [two_pow_xlen hx]
    simp only [minWord]
    omega
  rw [aluDiv, if_neg (by decide), if_neg (by simp [h]), tdiv_neg_one, ← hwrap]

theorem aluMod_min_of_wrap (h : c.policy = .wrap) : aluMod c (minWord c.xlen) (-1) = .ok 0 := by
  rw [aluMod, if_neg (by decide), if_neg (by simp [h]), tmod_neg_one]

theorem aluDiv_min_of_fault (h : c.policy = .fault) : aluDiv c (minWord c.xlen) (-1) = .error .overflow := by
  have hover : maxWord c.xlen < tdiv (minWord c.xlen) (-1) := by
    rw [tdiv_neg_one, minWord_eq]
    omega
  rw [aluDiv, if_neg (by decide), if_pos ⟨hover, h⟩]

theorem aluMod_min_of_fault (h : c.policy = .fault) : aluMod c (minWord c.xlen) (-1) = .error .overflow := by
  rw [aluMod, if_neg (by decide), if_pos ⟨rfl, rfl, h⟩]

end Answers

/-! ## The instructions with these operations -/

theorem exec_div (s : State) : exec .div s = conclude s.ip (binaryArith aluDiv (s.advance 1)) :=
  exec_arithmetic (p := (.div, aluDiv)) (by simp) s

theorem exec_mod (s : State) : exec .mod s = conclude s.ip (binaryArith aluMod (s.advance 1)) :=
  exec_arithmetic (p := (.mod, aluMod)) (by simp) s

/-- ADD, SUB and MUL narrow their exact result (42_arithmetic.md R101 to R103). -/
theorem exec_exact_result {a b : Word} {p : Instr × Int}
    (hp : p ∈ [(Instr.add, a + b), (.sub, a - b), (.mul, a * b)]) (s : State) :
    ∃ op, exec p.1 s = conclude s.ip (binaryArith op (s.advance 1)) ∧ op s.cfg a b = narrow s.cfg p.2 := by
  simp only [List.mem_cons, List.not_mem_nil, or_false] at hp
  rcases hp with rfl | rfl | rfl
  · exact ⟨aluAdd, rfl, rfl⟩
  · exact ⟨aluSub, rfl, rfl⟩
  · exact ⟨aluMul, rfl, rfl⟩

end Sys2Proof.Machine
end

section
/-! The statements about the results of the arithmetic instructions (spec/00_scope.md R4, 42_arithmetic.md R101 to
R109). -/

namespace Sys2Proof.Machine

/-- Settles O33: the exact result is narrowed, which leaves a word alone and else follows the policy. -/
theorem addSubMulResults : Obligations.AddSubMulResults := by
  intro s a b rest hx hos hcap p hp
  obtain ⟨op, hexec, hop⟩ := exec_exact_result hp s
  rw [hexec]
  refine ⟨fun hword => ?_, fun hwrap => ?_, fun hfault hout => ?_⟩
  · exact conclude_binaryArith_of_ok hos (hop.trans (narrow_of_inRange hx hword)) hcap
  · exact ⟨wrap s.cfg.xlen p.2, inRange_wrap hx p.2, dvd_sub_wrap s.cfg.xlen p.2,
      conclude_binaryArith_of_ok hos (hop.trans (narrow_of_wrap hwrap p.2)) hcap⟩
  · exact conclude_binaryArith_of_error hos (hop.trans (narrow_of_fault hfault hout))

/-- Settles O34: away from MIN by -1 the quotient is a word, and the spec's formulas are the integers' truncating
division. -/
theorem divModResults : Obligations.DivModResults := by
  intro s a b rest hx ha _ hb hpair hos hcap
  have hword : InRange s.cfg.xlen (tdiv a b) := not_not.mp (mt (not_inRange_tdiv_iff ha hb).mp hpair)
  rw [← tdiv_eq, ← tmod_eq, exec_div, exec_mod]
  exact ⟨conclude_binaryArith_of_ok hos (aluDiv_of_inRange hx hb hword) hcap,
    conclude_binaryArith_of_ok hos (aluMod_of_not_min hb hpair) hcap⟩

/-- Settles O36, by the magnitude of the quotient and of the remainder; the pair's four outcomes are those of the
two operations. -/
theorem onlyMinByMinusOneOverflows : Obligations.OnlyMinByMinusOneOverflows := by
  refine ⟨fun xlen a b _ ha hb h0 => ⟨not_inRange_tdiv_iff ha h0, inRange_tmod a hb h0⟩,
    fun s rest hx hos hcap => ?_⟩
  rw [exec_div, exec_mod]
  refine ⟨fun hwrap => ⟨?_, ?_⟩, fun hfault => ⟨?_, ?_⟩⟩
  · exact conclude_binaryArith_of_ok hos (aluDiv_min_of_wrap hx hwrap) hcap
  · exact conclude_binaryArith_of_ok hos (aluMod_min_of_wrap hwrap) hcap
  · exact conclude_binaryArith_of_error hos (aluDiv_min_of_fault hfault)
  · exact conclude_binaryArith_of_error hos (aluMod_min_of_fault hfault)

/-- Settles O37: the magnitudes are those of the division of the magnitudes, the signs those of the formula. -/
theorem truncatingDivisionLaw : Obligations.TruncatingDivisionLaw := by
  intro a b hb
  have hpos : 0 < b.natAbs := Int.natAbs_pos.mpr hb
  refine ⟨by rw [tmod]; ring, natAbs_tmod_lt a hb, tmod_eq_zero_or_sign_eq a b, ?_, ?_, tdiv_nonneg, tdiv_nonpos⟩
  · rw [natAbs_tdiv]
    exact Nat.div_mul_le_self a.natAbs b.natAbs
  · rw [natAbs_tdiv, Nat.add_one_mul]
    exact Nat.lt_div_mul_add hpos

/-- Settles O38: `wrap` is the balanced remainder modulo the power of two. -/
theorem wrapIsTheUniqueCongruentWord : Obligations.WrapIsTheUniqueCongruentWord :=
  fun xlen z hx => ⟨inRange_wrap hx z, dvd_sub_wrap xlen z, fun _ => eq_wrap_of_dvd hx⟩

end Sys2Proof.Machine
end

section
/-! What an operation on the state keeps of the invariant while an instruction is under way, at a failure too
(spec/00_scope.md R4, 10_state.md R13, R18, R21): everything but the fault record and the run state, which fault
entry and HALT write at the end. -/

namespace Sys2Proof.Machine

/-- What the invariant says of one frame. -/
structure Frame.Legal (xlen : Nat) (f : Frame) : Prop where
  ra : InRange xlen f.ra
  vars : ∀ p ∈ f.vars, InRange xlen p.1 ∧ InRange xlen p.2
  canonical : Memory.wf f.vars

/-- The invariant without its clauses on the fault record and the run state, for the fixed configuration `c`. -/
structure State.LegalData (c : Configuration) (s : State) : Prop where
  cfg : s.cfg = c
  ip : InRange c.xlen s.ip
  os : ∀ v ∈ s.os, InRange c.xlen v
  osCap : s.os.length ≤ c.stackCap
  fs : ∀ f ∈ s.fs, f.Legal c.xlen
  fsCap : s.fs.length ≤ c.frameCap
  trace : ∀ e ∈ s.trace, InRange c.xlen e.data

/-- An operation that ends in legal data, whether it raises or answers, and then with a value that `P` holds of. -/
def Res.Legal {α : Type} (c : Configuration) (P : α → Prop) : Res α → Prop
  | .ok a s => P a ∧ s.LegalData c
  | .raised _ s => s.LegalData c

/-! ## Words that come from nowhere but the parameters -/

section Words

variable {c : Configuration}

/-- A width at which 24 opcodes differ has the word 1: of one bit there are two words. -/
theorem inRange_one {xlen : Nat} {o : OpcodeMap} (h : o.WellFormed xlen) : InRange xlen 1 := by
  refine ⟨(minWord_le_zero xlen).trans Int.one_nonneg, not_lt.mp fun hlt => ?_⟩
  have hmin := minWord_eq xlen
  have hword : ∀ m, o.word m = -1 ∨ o.word m = 0 := fun m => by
    obtain ⟨hge, hle⟩ := h.2 m (Mnemonic.mem_all m)
    unfold Word at *
    omega
  have hne : ∀ {m n : Mnemonic}, m ≠ n → o.word m ≠ o.word n := mt (OpcodeMap.word_injective h)
  have hnh := hne (m := .nop) (n := .halt) (by decide)
  have hnp := hne (m := .nop) (n := .push) (by decide)
  have hhp := hne (m := .halt) (n := .push) (by decide)
  have hn := hword .nop
  have hh := hword .halt
  have hp := hword .push
  unfold Word at *
  omega

theorem inRange_asInt {xlen : Nat} {o : OpcodeMap} (h : o.WellFormed xlen) (b : Bool) : InRange xlen (asInt b) := by
  rcases asInt_zero_or_one b with hb | hb <;> rw [hb]
  · exact inRange_zero xlen
  · exact inRange_one h

/-- A slot index, and the one after the last slot, are words: `PROG_LEN <= MAX` (00_scope.md R3). -/
theorem inRange_of_le_length (hc : c.WellFormed) {a : Int} (h0 : 0 ≤ a) (h : a ≤ (c.prog.length : Int)) :
    InRange c.xlen a :=
  ⟨(minWord_le_zero c.xlen).trans h0, h.trans hc.2.2.2⟩

theorem inRange_memRead (hc : c.WellFormed) {a w : Word} (h : memRead c a = some w) : InRange c.xlen w :=
  hc.2.2.1 w (lt_of_memRead h).2.2

theorem inRange_next_of_memRead (hc : c.WellFormed) {a w : Word} (h : memRead c a = some w) :
    InRange c.xlen (a + 1) := by
  obtain ⟨h0, hlt, _⟩ := lt_of_memRead h
  exact inRange_of_le_length hc (Int.le_add_one h0) (Int.add_one_le_of_lt hlt)

end Words

/-! ## Frames -/

section Frames

variable {xlen : Nat} {f : Frame}

theorem Frame.initial_legal (xlen : Nat) : Frame.initial.Legal xlen :=
  ⟨inRange_zero xlen, by simp, Memory.wf_nil⟩

theorem Memory.read_eq_zero_or_mem (m : Memory) (id : Word) : m.read id = 0 ∨ (id, m.read id) ∈ m := by
  induction m with
  | nil => exact .inl rfl
  | cons p m ih =>
    obtain ⟨k, x⟩ := p
    by_cases hk : k = id
    · simp [Memory.read, hk]
    · simp only [Memory.read, if_neg hk, List.mem_cons]
      exact ih.imp_right .inr

theorem Frame.Legal.varRead (h : f.Legal xlen) (id : Word) : InRange xlen (varRead f id) := by
  rcases Memory.read_eq_zero_or_mem f.vars id with h0 | hmem
  · rw [Machine.varRead, h0]
    exact inRange_zero xlen
  · exact (h.vars _ hmem).2

theorem Frame.Legal.varWrite (h : f.Legal xlen) {id v : Word} (hid : InRange xlen id) (hv : InRange xlen v) :
    (varWrite f id v).Legal xlen := by
  refine ⟨h.ra, fun p hp => ?_, Memory.wf_write h.canonical id v⟩
  rcases Memory.mem_write hp with rfl | hold
  · exact ⟨hid, hv⟩
  · exact h.vars p hold

end Frames

/-! ## Updates of the state -/

namespace State.LegalData

variable {c : Configuration} {s : State}

theorem setIp (h : s.LegalData c) {v : Word} (hv : InRange c.xlen v) : (s.setIp v).LegalData c :=
  { h with ip := hv }

theorem advance (h : s.LegalData c) {n : Nat} (hip : InRange c.xlen (s.ip + n)) : (s.advance n).LegalData c :=
  { h with ip := hip }

theorem setOs (h : s.LegalData c) {l : List Word} (hl : ∀ v ∈ l, InRange c.xlen v) (hcap : l.length ≤ c.stackCap) :
    (s.setOs l).LegalData c :=
  { h with os := hl, osCap := hcap }

theorem setFs (h : s.LegalData c) {l : List Frame} (hl : ∀ f ∈ l, f.Legal c.xlen) (hcap : l.length ≤ c.frameCap) :
    (s.setFs l).LegalData c :=
  { h with fs := hl, fsCap := hcap }

theorem setRs (h : s.LegalData c) (r : RunState) : (s.setRs r).LegalData c := { h with }

theorem raiseFault (h : s.LegalData c) (k : Cause) (cur : Word) : (raiseFault k cur s).LegalData c := { h with }

theorem emit (h : s.LegalData c) (k : TraceKind) {v : Word} (hv : InRange c.xlen v) : (s.emit k v).LegalData c := by
  refine { h with trace := fun e he => ?_ }
  rw [State.emit_trace, List.mem_append, List.mem_singleton] at he
  rcases he with hold | rfl
  · exact h.trace e hold
  · exact hv

end State.LegalData

/-! ## Operations -/

section Operations

variable {c : Configuration} {s : State} {α β : Type} {P : α → Prop} {Q : β → Prop}

theorem Res.Legal.andThen {r : Res α} {k : α → State → Res β} (hr : r.Legal c P)
    (hk : ∀ a s, P a → s.LegalData c → (k a s).Legal c Q) : (r.andThen k).Legal c Q := by
  cases r with
  | ok a s => exact hk a s hr.1 hr.2
  | raised k s => exact hr

theorem Res.Legal.ok (h : s.LegalData c) : (Res.ok () s).Legal c (fun _ => True) := ⟨trivial, h⟩

/-- An instruction ends where its operations end, or in fault entry there. -/
theorem Res.Legal.conclude {r : Res Unit} {cur : Word} {t : State} (hr : r.Legal c (fun _ => True))
    (h : conclude cur r = .next t) : t.LegalData c := by
  rcases conclude_eq_next h with rfl | ⟨k, s, rfl, rfl⟩
  · exact hr.2
  · exact State.LegalData.raiseFault hr k cur

theorem osPush_legal {v : Word} (hs : s.LegalData c) (hv : InRange c.xlen v) :
    (osPush v s).Legal c (fun _ => True) := by
  rcases osPush_cases v s with ⟨hlt, h⟩ | ⟨_, h⟩ <;> rw [h]
  · rw [hs.cfg] at hlt
    exact .ok (hs.setOs (List.forall_mem_cons.mpr ⟨hv, hs.os⟩) hlt)
  · exact hs

theorem osPop_legal (hs : s.LegalData c) : (osPop s).Legal c (InRange c.xlen) := by
  rcases osPop_cases s with ⟨v, rest, hos, h⟩ | ⟨_, h⟩ <;> rw [h]
  · have hall := List.forall_mem_cons.mp (hos ▸ hs.os)
    have hcap := hs.osCap
    rw [hos, List.length_cons] at hcap
    exact ⟨hall.1, hs.setOs hall.2 (by omega)⟩
  · exact hs

theorem osPeek_legal (hs : s.LegalData c) : (osPeek s).Legal c (InRange c.xlen) := by
  rcases osPeek_cases s with ⟨v, rest, hos, h⟩ | ⟨_, h⟩ <;> rw [h]
  · exact ⟨(List.forall_mem_cons.mp (hos ▸ hs.os)).1, hs⟩
  · exact hs

theorem fsPeek_legal (hs : s.LegalData c) : (fsPeek s).Legal c (Frame.Legal c.xlen) := by
  rcases fsPeek_cases s with ⟨f, frames, hfs, h⟩ | ⟨_, h⟩ <;> rw [h]
  · exact ⟨(List.forall_mem_cons.mp (hfs ▸ hs.fs)).1, hs⟩
  · exact hs

theorem storeTop_legal {id v : Word} (hs : s.LegalData c) (hid : InRange c.xlen id) (hv : InRange c.xlen v) :
    ((fsPeek s).andThen fun f s' => .ok () (s'.setTopFrame (varWrite f id v))).Legal c (fun _ => True) := by
  rcases fsPeek_cases s with ⟨f, frames, hfs, h⟩ | ⟨_, h⟩ <;> rw [h]
  · have hall := List.forall_mem_cons.mp (hfs ▸ hs.fs)
    refine .ok (hs.setFs ?_ ?_)
    · rw [hfs, List.tail_cons]
      exact List.forall_mem_cons.mpr ⟨hall.1.varWrite hid hv, hall.2⟩
    · simpa [hfs] using hs.fsCap
  · exact hs

theorem popTwo_legal {k : Word → Word → State → Res Unit} (hs : s.LegalData c)
    (hk : ∀ a b s', InRange c.xlen a → InRange c.xlen b → s'.LegalData c → (k a b s').Legal c (fun _ => True)) :
    (popTwo s k).Legal c (fun _ => True) :=
  (osPop_legal hs).andThen fun b _ hb hs1 => (osPop_legal hs1).andThen fun a s2 ha hs2 => hk a b s2 ha hb hs2

/-- The two-operand form with an outcome that is always a word. -/
theorem pushResult_legal {f : Word → Word → Word} (hs : s.LegalData c) (hf : ∀ a b, InRange c.xlen (f a b)) :
    (popTwo s fun a b s' => osPush (f a b) s').Legal c (fun _ => True) :=
  popTwo_legal hs fun a b _ _ _ hs' => osPush_legal hs' (hf a b)

end Operations

/-! ## The ALU -/

/-- An operation of the ALU that answers, of words, a word. -/
def AnswersWords (c : Configuration) (op : Configuration → Word → Word → Except ArithmeticCause Word) : Prop :=
  ∀ a b r, InRange c.xlen b → op c a b = .ok r → InRange c.xlen r

section Alu

variable {c : Configuration}

theorem narrow_answersWord (hx : 1 ≤ c.xlen) {z r : Int} (h : narrow c z = .ok r) : InRange c.xlen r := by
  unfold narrow at h
  split at h
  · cases h
  · cases h
    exact inRange_wrap hx z

theorem aluDiv_answersWords (hx : 1 ≤ c.xlen) : AnswersWords c aluDiv := by
  intro a b r _ h
  unfold aluDiv at h
  split_ifs at h
  cases h
  exact inRange_wrap hx _

theorem aluMod_answersWords (c : Configuration) : AnswersWords c aluMod := by
  intro a b r hb h
  unfold aluMod at h
  split_ifs at h with h0
  cases h
  exact inRange_tmod a hb h0

theorem binaryArith_legal {op : Configuration → Word → Word → Except ArithmeticCause Word} {s : State}
    (hop : AnswersWords c op) (hs : s.LegalData c) : (binaryArith op s).Legal c (fun _ => True) := by
  refine popTwo_legal hs fun a b s' _ hb hs' => ?_
  rw [hs'.cfg]
  cases hr : op c a b with
  | ok r => exact osPush_legal hs' (hop a b r hb hr)
  | error e => exact hs'

end Alu

end Sys2Proof.Machine
end

section
/-! The invariant of the machine along a step (spec/10_state.md R23, R24, 60_exceptions.md R140, R147,
70_reset_and_hazards.md R170, R171). -/

namespace Sys2Proof.Machine

/-! ## The parts of the invariant -/

theorem State.Inv.legalData {s : State} (h : s.Inv) : s.LegalData s.cfg where
  cfg := rfl
  ip := h.words.ip
  os := h.words.os
  osCap := h.capacity.os
  fs := fun f hf => ⟨h.words.ra f hf, h.words.vars f hf, h.canonical f hf⟩
  fsCap := h.capacity.fs
  trace := h.words.trace

theorem State.LegalData.inv {c : Configuration} {s : State} (h : s.LegalData c) (hc : c.WellFormed)
    (hfip : InRange c.xlen s.fip) (hrecord : s.FaultRecordLegal) (hrun : s.RunStateLegal) : s.Inv := by
  obtain ⟨rfl, hip, hos, hosCap, hfs, hfsCap, htrace⟩ := h
  exact ⟨hc, ⟨hip, hos, fun f hf => (hfs f hf).ra, fun f hf => (hfs f hf).vars, hfip, htrace⟩, ⟨hosCap, hfsCap⟩,
    fun f hf => (hfs f hf).canonical, hrecord, hrun⟩

/-- In a run: exactly the initial frame, and no fault recorded. -/
structure State.InRun (s : State) : Prop where
  frame : ∃ f, s.fs = [f] ∧ f.ra = 0
  fk : s.fk = .none
  fsel : s.fsel = 0
  fip : s.fip = 0

theorem State.Inv.inRun {s : State} (h : s.Inv) (hrs : s.rs = .running) : s.InRun := by
  have hrun := h.runState
  rw [State.RunStateLegal, hrs] at hrun
  obtain ⟨hframe, hfk⟩ := hrun
  have hrecord := h.faultRecord
  rw [State.FaultRecordLegal, hfk] at hrecord
  exact ⟨hframe, hfk, hrecord.1, hrecord.2⟩

theorem State.InRun.runStateLegal {s : State} (h : s.InRun) (hrs : s.rs = .running ∨ s.rs = .halted) :
    s.RunStateLegal := by
  rcases hrs with hrs | hrs <;> rw [State.RunStateLegal, hrs] <;> exact ⟨h.frame, h.fk⟩

theorem State.InRun.faultRecordLegal {s : State} (h : s.InRun) : s.FaultRecordLegal := by
  rw [State.FaultRecordLegal, h.fk]
  exact ⟨h.fsel, h.fip⟩

/-- The fault record and legal data of a machine in a run are all of its invariant. -/
theorem State.InRun.inv {c : Configuration} {s : State} (h : s.InRun) (hc : c.WellFormed) (hdata : s.LegalData c)
    (hrs : s.rs = .running ∨ s.rs = .halted) : s.Inv :=
  hdata.inv hc (h.fip ▸ inRange_zero c.xlen) h.faultRecordLegal (h.runStateLegal hrs)

/-! ## Fault entry -/

/-- The causes that a run of the machine meets (60_exceptions.md R140 to R145). -/
def Cause.Reachable (c : Configuration) : Cause → Prop
  | .stackUnderflow on => on = .operand
  | .stackOverflow on => on = .frame → c.frameCap = 0
  | .arithmeticFault sub => sub = .overflow → c.policy = .fault
  | .unknownComparisonOperator => False
  | .fetchFault => True

theorem Cause.RaisedByInstr.reachable {k : Cause} {s : State} (h : k.RaisedByInstr s) (hfs : s.fs ≠ []) :
    k.Reachable s.cfg := by
  cases k with
  | stackUnderflow on =>
    cases on with
    | operand => rfl
    | frame => exact absurd (h.frameUnderflow rfl) hfs
  | stackOverflow on => exact fun hon => absurd (congrArg Cause.stackOverflow hon) h.not_frameOverflow
  | arithmeticFault sub => exact fun hsub => h.overflow (congrArg Cause.arithmeticFault hsub)
  | unknownComparisonOperator => exact h.not_unknown rfl
  | fetchFault => trivial

theorem Cause.kind_ne_none (k : Cause) : k.kind ≠ .none := by
  cases k <;> simp [Cause.kind]

theorem faultRecordLegal_raiseFault {k : Cause} {s : State} (hk : k.Reachable s.cfg) (cur : Word) :
    (raiseFault k cur s).FaultRecordLegal := by
  cases k with
  | stackUnderflow on =>
    cases on with
    | operand => exact (rfl : (0 : BitVec 1) = 0)
    | frame => cases hk
  | stackOverflow on =>
    cases on with
    | operand => exact fun h : (0 : BitVec 1) = 1 => absurd h (by decide)
    | frame => exact fun _ => hk rfl
  | arithmeticFault sub =>
    cases sub with
    | zeroDivisor => exact fun h : (0 : BitVec 1) = 1 => absurd h (by decide)
    | overflow => exact fun _ => hk rfl
  | unknownComparisonOperator => cases hk
  | fetchFault => exact (rfl : (0 : BitVec 1) = 0)

/-- Fault entry with a reachable cause gives the invariant, where the frame stack is empty or holds the initial
frame. -/
theorem inv_raiseFault {c : Configuration} {s : State} {k : Cause} {cur : Word} (hc : c.WellFormed)
    (hdata : s.LegalData c) (hcur : InRange c.xlen cur) (hk : k.Reachable s.cfg)
    (hframe : s.fs = [] ∨ ∃ f, s.fs = [f] ∧ f.ra = 0) : (raiseFault k cur s).Inv :=
  (State.LegalData.raiseFault hdata k cur).inv hc hcur (faultRecordLegal_raiseFault hk cur) ⟨hframe, k.kind_ne_none⟩

/-! ## An instruction -/

/-- Every instruction keeps the data legal, when its immediate is a word and `ip` after its slots is one. -/
theorem exec_keeps_legalData {c : Configuration} {i : Instr} {s t : State} (hc : c.WellFormed)
    (himm : ∀ v, i.immediate = some v → InRange c.xlen v) (hs : (s.advance i.slots).LegalData c)
    (h : exec i s = .next t) : t.LegalData c := by
  have hx : 1 ≤ c.xlen := hc.1
  have hbool : ∀ b, InRange c.xlen (asInt b) := inRange_asInt hc.2.1
  cases i with
  | nop =>
    cases h
    exact hs.emit .nop (inRange_zero c.xlen)
  | halt =>
    cases h
    exact (hs.emit .halt (inRange_zero c.xlen)).setRs .halted
  | push v => exact (osPush_legal hs (himm v rfl)).conclude h
  | pop => exact ((osPop_legal hs).andThen fun _ _ _ hs1 => .ok hs1).conclude h
  | dup => exact ((osPeek_legal hs).andThen fun _ _ hv hs1 => osPush_legal hs1 hv).conclude h
  | load id => exact ((fsPeek_legal hs).andThen fun _ _ hf hs1 => osPush_legal hs1 (hf.varRead id)).conclude h
  | store id => exact ((osPop_legal hs).andThen fun _ _ hv hs1 => storeTop_legal hs1 (himm id rfl) hv).conclude h
  | printI => exact ((osPop_legal hs).andThen fun _ _ hv hs1 => .ok (hs1.emit .print hv)).conclude h
  | add => exact (binaryArith_legal (fun _ _ _ _ => narrow_answersWord hx) hs).conclude h
  | sub => exact (binaryArith_legal (fun _ _ _ _ => narrow_answersWord hx) hs).conclude h
  | mul => exact (binaryArith_legal (fun _ _ _ _ => narrow_answersWord hx) hs).conclude h
  | div => exact (binaryArith_legal (aluDiv_answersWords hx) hs).conclude h
  | mod => exact (binaryArith_legal (aluMod_answersWords c) hs).conclude h
  | not => exact ((osPop_legal hs).andThen fun _ _ _ hs1 => osPush_legal hs1 (hbool _)).conclude h
  | and => exact (pushResult_legal hs fun _ _ => hbool _).conclude h
  | or => exact (pushResult_legal hs fun _ _ => hbool _).conclude h
  | cmpE => exact (pushResult_legal hs fun a b => hbool (Relation.e.holds a b)).conclude h
  | cmpNe => exact (pushResult_legal hs fun a b => hbool (Relation.ne.holds a b)).conclude h
  | cmpG => exact (pushResult_legal hs fun a b => hbool (Relation.g.holds a b)).conclude h
  | cmpGe => exact (pushResult_legal hs fun a b => hbool (Relation.ge.holds a b)).conclude h
  | cmpL => exact (pushResult_legal hs fun a b => hbool (Relation.l.holds a b)).conclude h
  | cmpLe => exact (pushResult_legal hs fun a b => hbool (Relation.le.holds a b)).conclude h
  | jmp => exact ((osPop_legal hs).andThen fun _ _ hv hs1 => .ok (hs1.setIp hv)).conclude h
  | jif =>
    refine ((osPop_legal hs).andThen fun cond s1 _ hs1 => ?_).conclude h
    split
    · exact (osPop_legal hs1).andThen fun _ _ hv hs2 => .ok (hs2.setIp hv)
    · exact .ok hs1

/-- An instruction that completes stays in the run: no frame is pushed or popped, and STORE keeps the return
address. -/
theorem CompletesTo.inRun {i : Instr} {s t : State} (h : CompletesTo i s t) (hs : s.InRun) : t.InRun := by
  obtain ⟨os', fs', ip', tr, rs', rfl, _, _, _, _, rfl | ⟨id, f, frames, v, rest, _, _, _, hfs, rfl⟩⟩ := h
  · exact ⟨hs.frame, hs.fk, hs.fsel, hs.fip⟩
  · obtain ⟨g, hg, hra⟩ := hs.frame
    obtain ⟨rfl, rfl⟩ : f = g ∧ frames = [] := by simpa [hfs] using hg
    exact ⟨⟨_, rfl, hra⟩, hs.fk, hs.fsel, hs.fip⟩

theorem CompletesTo.running_or_halted {i : Instr} {s t : State} (h : CompletesTo i s t) (hrs : s.rs = .running) :
    t.rs = .running ∨ t.rs = .halted := by
  obtain ⟨_, _, _, _, _, rfl, _, _, ⟨_, hrs'⟩ | ⟨_, hrs'⟩, _⟩ := h
  · exact .inl (hrs'.trans hrs)
  · exact .inr hrs'

theorem exec_keeps_inv {i : Instr} {s t : State} (hs : s.Inv) (hrs : s.rs = .running)
    (himm : ∀ v, i.immediate = some v → InRange s.cfg.xlen v) (hip : InRange s.cfg.xlen (s.ip + i.slots))
    (h : exec i s = .next t) : t.Inv := by
  have hrun : s.InRun := hs.inRun hrs
  have hdata : t.LegalData s.cfg := exec_keeps_legalData hs.cfg himm (hs.legalData.advance hip) h
  rcases exec_next_cases i s t h with hcompletes | ⟨os', k, rfl, _, _, hk⟩
  · exact (hcompletes.inRun hrun).inv hs.cfg hdata (hcompletes.running_or_halted hrs)
  · obtain ⟨f, hf, _⟩ := hrun.frame
    exact hdata.inv hs.cfg hs.words.ip (faultRecordLegal_raiseFault (hk.reachable (by simp [hf])) s.ip)
      ⟨.inr hrun.frame, k.kind_ne_none⟩

/-! ## A step -/

/-- By what the fetches of the step gave: the words they read are in the stream, and so are the indices they passed
(30_encoding.md R61 to R63, R70). -/
theorem stepRunning_keeps_inv {s t : State} (hs : s.Inv) (hrs : s.rs = .running) (h : stepRunning s = .next t) :
    t.Inv := by
  have hc : s.cfg.WellFormed := hs.cfg
  have hrun : s.InRun := hs.inRun hrs
  rcases fetchInstr_cases s with ⟨w, m, hw, _, hf, hfetch⟩ | ⟨w, m, imm, _, _, hf, himm, hfetch⟩ |
    ⟨w, hw, _, hfetch⟩ | ⟨_, hfetch⟩ | ⟨w, _, hw, _, _, _, hfetch⟩
  · rw [stepRunning_of_instr hfetch] at h
    refine exec_keeps_inv hs hrs ?_ ?_ h
    · simp [immediate_assemble, hf]
    · rw [slots_assemble, hf]
      exact inRange_next_of_memRead hc hw
  · rw [stepRunning_of_instr hfetch] at h
    refine exec_keeps_inv hs hrs ?_ ?_ h
    · simpa [immediate_assemble, hf] using inRange_memRead hc himm
    · rw [slots_assemble, hf]
      exact add_assoc s.ip 1 1 ▸ inRange_next_of_memRead hc himm
  · obtain rfl : (s.advance 1).emit .invalid w = t := by
      simpa [stepRunning_of_invalid hfetch, execInvalid_eq] using h
    have hstill : ((s.advance 1).emit .invalid w).InRun := ⟨hrun.frame, hrun.fk, hrun.fsel, hrun.fip⟩
    have hdata := (hs.legalData.advance (inRange_next_of_memRead hc hw)).emit .invalid (inRange_memRead hc hw)
    exact hstill.inv hc hdata (.inl hrs)
  · obtain rfl : raiseFault .fetchFault s.ip s = t := by simpa [stepRunning_of_raised hfetch] using h
    exact inv_raiseFault hc hs.legalData hs.words.ip trivial (.inr hrun.frame)
  · obtain rfl : raiseFault .fetchFault s.ip (s.advance 1) = t := by
      simpa [stepRunning_of_raised hfetch] using h
    exact inv_raiseFault hc (hs.legalData.advance (inRange_next_of_memRead hc hw)) hs.words.ip trivial (.inr hrun.frame)

/-- The start event begins a run with the one frame, or records that there is no room for it. -/
theorem startReady_keeps_inv {s : State} (hs : s.Inv) (hrs : s.rs = .ready) : (startReady s).Inv := by
  have hready := hs.runState
  rw [State.RunStateLegal, hrs] at hready
  obtain ⟨_, _, hfs, hfk, _⟩ := hready
  have hrecord := hs.faultRecord
  rw [State.FaultRecordLegal, hfk] at hrecord
  have hdata : (s.setIp 0).LegalData s.cfg := hs.legalData.setIp (inRange_zero _)
  rcases startReady_cases s with ⟨hroom, h⟩ | ⟨hfull, h⟩ <;> rw [h]
  · rw [hfs] at hroom ⊢
    have hframes : ((s.setIp 0).setFs [Frame.initial]).LegalData s.cfg :=
      hdata.setFs (by simpa using Frame.initial_legal s.cfg.xlen) hroom
    exact State.InRun.inv ⟨⟨Frame.initial, rfl, rfl⟩, hfk, hrecord.1, hrecord.2⟩ hs.cfg (hframes.setRs .running)
      (.inl rfl)
  · refine inv_raiseFault hs.cfg hdata (inRange_zero _) (fun _ => ?_) (.inl hfs)
    simpa [hfs] using hfull

theorem step_keeps_inv {s t : State} (hs : s.Inv) (h : step s = .next t) : t.Inv := by
  cases hrs : s.rs with
  | ready =>
    obtain rfl : startReady s = t := by simpa [step_of_ready hrs, startEvent_of_ready hrs] using h
    exact startReady_keeps_inv hs hrs
  | running => exact stepRunning_keeps_inv hs hrs (step_of_running hrs ▸ h)
  | halted => simp [step_of_halted hrs] at h
  | faulted => simp [step_of_faulted hrs] at h

/-! ## Reset -/

theorem resetWith_inv {c : Configuration} (hc : c.WellFormed) : (State.resetWith c).Inv := by
  have hdata : (State.resetWith c).LegalData c :=
    { cfg := rfl, ip := inRange_zero _, os := by simp, osCap := by simp, fs := by simp, fsCap := by simp,
      trace := by simp }
  exact hdata.inv hc (inRange_zero _) ⟨rfl, rfl⟩ ⟨rfl, rfl, rfl, rfl, rfl⟩

theorem Configuration.specDefault_wellFormed : Configuration.specDefault.WellFormed := by decide

theorem resetEvent_inv {r : ResetInputs} {s t : State} (h : resetEvent r s = .next t) : t.Inv := by
  rcases resetEvent_cases r s with ⟨hc, hnext⟩ | ⟨_, hrefused⟩
  · obtain rfl : State.resetWith (Configuration.latch s.cfg r) = t := by simpa [hnext] using h
    exact resetWith_inv hc
  · simp [hrefused] at h

end Sys2Proof.Machine
end

section
/-! The statements about the machine's invariant. -/

namespace Sys2Proof.Machine

/-- Settles O18: an instruction keeps the data legal operation by operation, and what it raises is reachable. -/
theorem stepKeepsTheMachineInvariant : Obligations.StepKeepsTheMachineInvariant :=
  fun _ _ => step_keeps_inv

/-- Settles O19: nothing is held after a reset but the parameters and zeros. -/
theorem resetSatisfiesTheMachineInvariant : Obligations.ResetSatisfiesTheMachineInvariant :=
  ⟨resetWith_inv Configuration.specDefault_wellFormed, fun _ => resetWith_inv, fun _ _ _ => resetEvent_inv⟩

end Sys2Proof.Machine
end

section
/-! Rules of the fetch (spec/30_encoding.md R61 to R63), of the step in each run state (R70), and of a run
(spec/60_exceptions.md R159, 70_reset_and_hazards.md R174). -/

namespace Sys2Proof.Machine

/-! ## The fetch, by what stands at `ip` and after it -/

section Fetch

variable {s : State} {w imm : Word} {m : Mnemonic}

theorem fetch_of_memRead (h : memRead s.cfg s.ip = some w) : fetch s = .ok w (s.advance 1) := by
  simp [fetch, h]

theorem fetch_of_outside (h : s.ip < 0 ∨ (s.cfg.prog.length : Int) ≤ s.ip) : fetch s = .raised .fetchFault s := by
  simp [fetch, (memRead_eq_none_iff s.cfg s.ip).mpr h]

theorem fetchInstr_of_outside (h : s.ip < 0 ∨ (s.cfg.prog.length : Int) ≤ s.ip) :
    fetchInstr s = .raised .fetchFault s := by
  simp [fetchInstr, fetch_of_outside h]

theorem fetchInstr_of_invalid (hw : memRead s.cfg s.ip = some w) (hr : recognise s.cfg.opc w = none) :
    fetchInstr s = .invalid w := by
  simp [fetchInstr, fetch_of_memRead hw, hr]

theorem fetchInstr_of_op (hw : memRead s.cfg s.ip = some w) (hm : recognise s.cfg.opc w = some m)
    (hf : m.format = .op) : fetchInstr s = .instr (assemble m 0) := by
  simp [fetchInstr, fetch_of_memRead hw, hm, hf]

theorem fetchInstr_of_opImm (hw : memRead s.cfg s.ip = some w) (hm : recognise s.cfg.opc w = some m)
    (hf : m.format = .opImm) (himm : memRead s.cfg (s.ip + 1) = some imm) :
    fetchInstr s = .instr (assemble m imm) := by
  have hnext : fetch (s.advance 1) = .ok imm ((s.advance 1).advance 1) := fetch_of_memRead himm
  simp [fetchInstr, fetch_of_memRead hw, hm, hf, hnext]

theorem fetchInstr_of_missing_immediate (hw : memRead s.cfg s.ip = some w) (hm : recognise s.cfg.opc w = some m)
    (hf : m.format = .opImm) (hlast : s.ip + 1 = s.cfg.prog.length) :
    fetchInstr s = .raised .fetchFault (s.advance 1) := by
  have hnext : fetch (s.advance 1) = .raised .fetchFault (s.advance 1) := fetch_of_outside (.inr hlast.ge)
  simp [fetchInstr, fetch_of_memRead hw, hm, hf, hnext]

/-- A slot of the stream is the first of the slots from its index on (20_memory.md R41). -/
theorem memRead_of_drop {c : Configuration} {a : Word} {rest : List Word} (h0 : 0 ≤ a)
    (h : c.prog.drop a.toNat = w :: rest) : memRead c a = some w := by
  have hget : (c.prog.drop a.toNat)[0]? = some w := by rw [h]; rfl
  rw [List.getElem?_drop, Nat.add_zero] at hget
  rw [memRead, if_pos h0, hget]

/-- The fetches of a step read what the decoder reads from the stream (30_encoding.md R61, R63). -/
theorem fetchInstr_of_decode {i : Instr} {rest : List Word} (h0 : 0 ≤ s.ip)
    (h : decode s.cfg.opc (s.cfg.prog.drop s.ip.toNat) = .ok (i, rest)) : fetchInstr s = .instr i := by
  rcases decode_eq_ok_cases h with ⟨w, m, hm, hf, hdrop, rfl⟩ | ⟨w, m, imm, hm, hf, hdrop, rfl⟩
  · exact fetchInstr_of_op (memRead_of_drop h0 hdrop) hm hf
  · have hnext : s.cfg.prog.drop (s.ip + 1).toNat = imm :: rest := by
      rw [Int.toNat_add h0 Int.one_nonneg, ← List.drop_drop, hdrop]
      rfl
    exact fetchInstr_of_opImm (memRead_of_drop h0 hdrop) hm hf (memRead_of_drop (Int.le_add_one h0) hnext)

end Fetch

/-! ## The step of a Running machine -/

section Running

variable {s t : State}

theorem stepRunning_completes (s : State) : ∃ t, stepRunning s = .next t := by
  cases h : fetchInstr s with
  | instr i => exact stepRunning_of_instr h ▸ exec_completes i s
  | invalid w => exact ⟨_, stepRunning_of_invalid h⟩
  | raised c s1 => exact ⟨_, stepRunning_of_raised h⟩

theorem step_of_outside (hrs : s.rs = .running) (h : s.ip < 0 ∨ (s.cfg.prog.length : Int) ≤ s.ip) :
    step s = .next (s.faultedAs .fetchFault 0 s.ip s.os) := by
  rw [step_of_running hrs, stepRunning_of_raised (fetchInstr_of_outside h)]
  rfl

/-- An instruction leaves the run state alone, faults, or is HALT. -/
theorem exec_rs_cases {i : Instr} (h : exec i s = .next t) :
    t.rs = s.rs ∨ t.rs = .faulted ∨ (i = .halt ∧ t.rs = .halted) := by
  rcases exec_next_cases i s t h with ⟨_, _, _, _, _, rfl, _, _, ⟨_, hrs⟩ | hhalt, _⟩ | ⟨_, _, rfl, _⟩
  · exact .inl hrs
  · exact .inr (.inr hhalt)
  · exact .inr (.inl rfl)

theorem stepRunning_rs_cases (h : stepRunning s = .next t) :
    t.rs = s.rs ∨ t.rs = .faulted ∨ (fetchInstr s = .instr .halt ∧ t.rs = .halted) := by
  cases hf : fetchInstr s with
  | instr i =>
    simpa using exec_rs_cases (stepRunning_of_instr hf ▸ h)
  | invalid w =>
    obtain rfl : (s.advance 1).emit .invalid w = t := by simpa [stepRunning_of_invalid hf, execInvalid_eq] using h
    exact .inl rfl
  | raised c s1 =>
    obtain rfl : raiseFault c s.ip s1 = t := by simpa [stepRunning_of_raised hf] using h
    exact .inr (.inl rfl)

end Running

/-! ## A run -/

section Run

variable {s t : State}

theorem runFor_succ_of_next (h : step s = .next t) (n : Nat) : runFor (n + 1) s = runFor n t := by
  simp [runFor, h]

theorem runFor_of_no_step (h : ∀ t, step s ≠ .next t) (n : Nat) : runFor n s = s := by
  cases n with
  | zero => rfl
  | succ n =>
    unfold runFor
    split
    · exact absurd ‹_› (h _)
    · rfl
    · rfl

/-- A run of `n + k` steps goes on with `k` steps after `n`, also where it ended before. -/
theorem runFor_add (n k : Nat) (s : State) : runFor (n + k) s = runFor k (runFor n s) := by
  induction n generalizing s with
  | zero => rw [Nat.zero_add, runFor]
  | succ n ih =>
    by_cases h : ∃ t, step s = .next t
    · obtain ⟨t, ht⟩ := h
      rw [Nat.add_right_comm, runFor_succ_of_next ht, runFor_succ_of_next ht, ih]
    · simp only [runFor_of_no_step (not_exists.mp h)]

theorem result_eq_success_iff (s : State) : s.result = some .success ↔ s.rs = .halted := by
  cases h : s.rs <;> simp [State.result, h]

theorem result_eq_failure_iff (s : State) (k : FaultKind) (sel : BitVec 1) (at_ : Word) :
    s.result = some (.failure k sel at_) ↔ s.rs = .faulted ∧ s.fk = k ∧ s.fsel = sel ∧ s.fip = at_ := by
  cases h : s.rs <;> simp [State.result, h]

/-- A machine with a result takes no step (70_reset_and_hazards.md R174). -/
theorem no_step_of_result {r : RunResult} (h : s.result = some r) (t : State) : step s ≠ .next t := by
  cases hrs : s.rs with
  | ready => simp [State.result, hrs] at h
  | running => simp [State.result, hrs] at h
  | halted => simp [step_of_halted hrs]
  | faulted => simp [step_of_faulted hrs]

end Run

end Sys2Proof.Machine
end

section
/-! The statements about the step, the start event, the reset event and the run (spec/30_encoding.md R61 to R70,
40_general.md R82, 60_exceptions.md R145, R159, 70_reset_and_hazards.md). -/

namespace Sys2Proof.Machine

/-- Settles O12: an instruction, an invalid opcode and a fetch fault all answer a next state. -/
theorem stepExistsExactlyFromReadyAndRunning : Obligations.StepExistsExactlyFromReadyAndRunning := by
  intro s
  refine ⟨fun hrs => step_of_running hrs ▸ stepRunning_completes s, step_of_ready, ?_⟩
  cases hrs : s.rs with
  | ready => simp [step_of_ready hrs]
  | running => simpa [step_of_running hrs] using stepRunning_completes s
  | halted => simp [step_of_halted hrs]
  | faulted => simp [step_of_faulted hrs]

/-- Settles O13, by the run state the step began in. -/
theorem runStateTransitionsAreTheListedOnes : Obligations.RunStateTransitionsAreTheListedOnes := by
  intro s t h
  cases hrs : s.rs with
  | ready =>
    obtain rfl : startReady s = t := by simpa [step_of_ready hrs, startEvent_of_ready hrs] using h
    rcases startReady_cases s with ⟨hroom, hstart⟩ | ⟨hfull, hstart⟩ <;> rw [hstart]
    · exact .inl ⟨rfl, rfl, hroom⟩
    · exact .inr (.inl ⟨rfl, rfl, hfull⟩)
  | running =>
    rw [step_of_running hrs] at h
    rcases stepRunning_rs_cases h with hsame | hfaulted | ⟨hfetch, hhalted⟩
    · exact .inr (.inr (.inl ⟨rfl, hsame.trans hrs⟩))
    · exact .inr (.inr (.inr (.inl ⟨rfl, hfaulted⟩)))
    · exact .inr (.inr (.inr (.inr ⟨rfl, hhalted, hfetch⟩)))
  | halted => simp [step_of_halted hrs] at h
  | faulted => simp [step_of_faulted hrs] at h

/-- Settles O53: no step leaves a state with a result, so every further bound ends in that state. -/
theorem endedRunKeepsItsResult : Obligations.EndedRunKeepsItsResult := by
  refine ⟨fun s => ⟨result_eq_success_iff s, result_eq_failure_iff s⟩, fun n m s r h hle => ?_⟩
  obtain ⟨k, rfl⟩ := Nat.exists_eq_add_of_le hle
  have hsame : runFor (n + k) s = runFor n s := by rw [runFor_add, runFor_of_no_step (no_step_of_result h)]
  exact ⟨by rw [runResult, hsame]; exact h, hsame⟩

/-- Settles O8: the fetches read what the decoder reads. -/
theorem stepRunsTheDecodedInstruction : Obligations.StepRunsTheDecodedInstruction := by
  intro s i rest hrs h0 hdecode
  rw [step_of_running hrs, stepRunning_of_instr (fetchInstr_of_decode h0 hdecode)]

/-- Settles O9: a word that is no opcode is one event and one slot. -/
theorem invalidOpcodeIsATracedNoOp : Obligations.InvalidOpcodeIsATracedNoOp := by
  intro s w hrs hw hr
  rw [step_of_running hrs, stepRunning_of_invalid (fetchInstr_of_invalid hw hr), execInvalid_eq]
  rfl

/-- Settles O10: the fetch raises with the state as it was. -/
theorem opcodeFetchOutsideTheStreamFaults : Obligations.OpcodeFetchOutsideTheStreamFaults :=
  fun _ => step_of_outside

/-- Settles O11: the opcode's format asks for a slot that lies at the end of the stream. -/
theorem missingImmediateSlotFaults : Obligations.MissingImmediateSlotFaults := by
  intro s w hc hrs hw hopImm hlast
  obtain ⟨m, hf, rfl⟩ := exists_opImm_word_iff.mpr hopImm
  have hfetch := fetchInstr_of_missing_immediate hw (recognise_word hc.2.1 m) hf hlast
  rw [step_of_running hrs, stepRunning_of_raised hfetch]
  rfl

/-- Settles O15, by whether the latched configuration is in range. -/
theorem resetEventGivesTheResetValues : Obligations.ResetEventGivesTheResetValues := by
  rintro r s _ rfl
  rcases resetEvent_cases r s with ⟨hc, h⟩ | ⟨hc, h⟩
  · exact ⟨fun _ => h, fun hno => absurd hc hno⟩
  · exact ⟨fun hyes => absurd hyes hc, fun _ => h⟩

/-- Settles O16: the frame pushed is the initial one. -/
theorem startEventBeginsTheRun : Obligations.StartEventBeginsTheRun := by
  intro s hrs
  rw [step_of_ready hrs, startEvent_of_ready hrs]
  rcases startReady_cases s with ⟨hroom, h⟩ | ⟨hfull, h⟩ <;> rw [h]
  · exact ⟨fun _ => ⟨Frame.initial, rfl, fun _ => rfl, rfl⟩, fun hzero => by omega⟩
  · exact ⟨fun hlt => by omega, fun _ => rfl⟩

/-- Settles O17, by the run state. -/
theorem startEventActsOnlyInReady : Obligations.StartEventActsOnlyInReady := by
  intro s hrs
  cases h : s.rs with
  | ready => exact absurd h hrs
  | running => simp [startEvent, h]
  | halted => simp [startEvent, h]
  | faulted => simp [startEvent, h]

end Sys2Proof.Machine
end

section
/-! Rules that evaluate an instruction operation by operation (spec/41_data.md, 43_logic.md, 45_control_flow.md):
its advance of `ip`, then a pop or a peek, then a push. -/

namespace Sys2Proof.Machine

section Conclude

variable {s : State} {v : Word} {rest l : List Word}

theorem conclude_raised_advance (c : Cause) (s : State) (n : Nat) :
    conclude s.ip (.raised c (s.advance n)) = .next (s.faultedAs c.kind c.sel (s.ip + n) s.os) := rfl

theorem conclude_osPop_nil (h : s.os = []) (n : Nat) (k : Word → State → Res Unit) :
    conclude s.ip ((osPop (s.advance n)).andThen k) = .next (s.faultedAs .stackUnderflow 0 (s.ip + n) []) := by
  rw [osPop_nil (s := s.advance n) h, Res.raised_andThen, conclude_raised_advance, h]
  rfl

theorem conclude_osPop_cons (h : s.os = v :: rest) (n : Nat) (k : Word → State → Res Unit) :
    conclude s.ip ((osPop (s.advance n)).andThen k) = conclude s.ip (k v ((s.advance n).setOs rest)) := by
  rw [osPop_cons (s := s.advance n) h, Res.ok_andThen]

/-- The push that ends an instruction, with room on what its pops have left. -/
theorem conclude_osPush_of_lt (h : l.length < s.cfg.stackCap) (n : Nat) (v : Word) :
    conclude s.ip (osPush v ((s.advance n).setOs l)) = .next { s with ip := s.ip + n, os := v :: l } := by
  rw [osPush_of_lt (s := (s.advance n).setOs l) h, conclude_ok]
  rfl

theorem conclude_osPush_of_le (h : s.cfg.stackCap ≤ s.os.length) (n : Nat) (v : Word) :
    conclude s.ip (osPush v (s.advance n)) = .next (s.faultedAs .stackOverflow 0 (s.ip + n) s.os) := by
  rw [osPush_of_le (s := s.advance n) h, conclude_raised_advance]
  rfl

end Conclude

/-! ## DUP, LOAD and STORE -/

theorem exec_dup_of_cons {s : State} {v : Word} {rest : List Word} (h : s.os = v :: rest) :
    exec .dup s = conclude s.ip (osPush v (s.advance 1)) := by
  simp only [exec, execDup, osPeek_cons (s := s.advance 1) h, Res.ok_andThen]

theorem exec_dup_of_nil {s : State} (h : s.os = []) :
    exec .dup s = .next (s.faultedAs .stackUnderflow 0 (s.ip + 1) []) := by
  rw [exec, execDup, osPeek_nil (s := s.advance 1) h, Res.raised_andThen, conclude_raised_advance, h]
  rfl

/-- LOAD with a frame pushes the value of its cell (41_data.md R93). -/
theorem exec_load_of_cons {s : State} {f : Frame} {frames : List Frame} (h : s.fs = f :: frames) (id : Word) :
    exec (.load id) s = conclude s.ip (osPush (varRead f id) (s.advance 2)) := by
  simp only [exec, execLoad, fsPeek_cons (s := s.advance 2) h, Res.ok_andThen]

theorem exec_load_of_lt {s : State} {f : Frame} {frames : List Frame} (h : s.fs = f :: frames)
    (hroom : s.os.length < s.cfg.stackCap) (id : Word) :
    exec (.load id) s = .next { s with ip := s.ip + 2, os := varRead f id :: s.os } := by
  rw [exec_load_of_cons h]
  exact conclude_osPush_of_lt (l := s.os) hroom 2 (varRead f id)

theorem exec_load_of_nil {s : State} (h : s.fs = []) (id : Word) :
    exec (.load id) s = .next (s.faultedAs .stackUnderflow 1 (s.ip + 2) s.os) := by
  rw [exec, execLoad, fsPeek_nil (s := s.advance 2) h, Res.raised_andThen, conclude_raised_advance]
  rfl

theorem exec_store_of_no_frame {s : State} {v : Word} {rest : List Word} (hos : s.os = v :: rest) (hfs : s.fs = [])
    (id : Word) : exec (.store id) s = .next (s.faultedAs .stackUnderflow 1 (s.ip + 2) rest) := by
  rw [exec, execStore, conclude_osPop_cons hos, fsPeek_nil (s := (s.advance 2).setOs rest) hfs, Res.raised_andThen,
    conclude_raised_setOs]
  rfl

/-! ## The binary logic instructions -/

theorem logicNot_eq (a : Word) : logicNot a = if a = 0 then 1 else 0 := asInt_decide (a = 0)

theorem logicAnd_eq (a b : Word) : logicAnd a b = if a ≠ 0 ∧ b ≠ 0 then 1 else 0 := by
  rw [logicAnd, asBool, asBool, ← Bool.decide_and, asInt_decide]

theorem logicOr_eq (a b : Word) : logicOr a b = if a ≠ 0 ∨ b ≠ 0 then 1 else 0 := by
  rw [logicOr, asBool, asBool, ← Bool.decide_or, asInt_decide]

/-- AND, and OR below, is the two-operand form with an operation that never raises. -/
theorem exec_and (s : State) :
    exec .and s = conclude s.ip (binaryArith (fun _ a b => .ok (logicAnd a b)) (s.advance 1)) := rfl

theorem exec_or (s : State) :
    exec .or s = conclude s.ip (binaryArith (fun _ a b => .ok (logicOr a b)) (s.advance 1)) := rfl

theorem exec_binaryLogic_underflow {i : Instr} (hi : i ∈ [Instr.and, .or]) {s : State} (h : s.os.length ≤ 1) :
    exec i s = .next (s.faultedAs .stackUnderflow 0 (s.ip + 1) []) := by
  simp only [List.mem_cons, List.not_mem_nil, or_false] at hi
  rcases hi with rfl | rfl
  · rw [exec_and, conclude_binaryArith_underflow h]
  · rw [exec_or, conclude_binaryArith_underflow h]

/-! ## The relation evaluator and JIF -/

/-- The second look at the opcode knows the six of the family (44_comparison.md R127). -/
theorem relationSelect_eq_none {m : Mnemonic}
    (h : m ∉ [Mnemonic.cmpE, .cmpNe, .cmpG, .cmpGe, .cmpL, .cmpLe]) : relationSelect m = none := by
  revert h
  cases m <;> decide

/-- JIF with a nonzero condition pops its target, or underflows for want of one (45_control_flow.md R131). -/
theorem exec_jif_of_ne_zero {s : State} {c : Word} {rest : List Word} (hc : c ≠ 0) (hos : s.os = c :: rest) :
    exec .jif s =
      conclude s.ip ((osPop ((s.advance 1).setOs rest)).andThen fun t s2 => .ok () (s2.setIp t)) := by
  rw [exec, execJif, conclude_osPop_cons hos, if_pos ((asBool_iff c).mpr hc)]

end Sys2Proof.Machine
end

section
/-! The statements about single instructions and about the frame stack (spec/10_state.md R19, R22, 40_general.md,
41_data.md, 43_logic.md, 44_comparison.md R127, 45_control_flow.md). -/

namespace Sys2Proof.Machine

/-- Settles O31: STORE makes the room that LOAD fills, with the cell that STORE wrote. -/
theorem storeThenLoadReturnsTheValue : Obligations.StoreThenLoadReturnsTheValue := by
  intro id s f frames hne hcap hfs hwf
  obtain ⟨v, rest, hos⟩ := List.exists_cons_of_ne_nil hne
  have hroom : rest.length < s.cfg.stackCap := by
    rw [hos, List.length_cons] at hcap
    omega
  have hread : varRead (varWrite f id v) id = v := Memory.read_write_same hwf id v
  refine ⟨_, _, exec_store_of_cons hos hfs, exec_load_of_lt (State.setTopFrame_fs ..) ?_ id, ?_, rfl⟩
  · exact hroom
  · simp [hread, hos]

/-- Settles O39: AND and OR share the two-operand form, with an outcome that is always there. -/
theorem logicEffects : Obligations.LogicEffects := by
  refine fun s hcap => ⟨fun a rest hos => ?_, fun a b rest hos => ⟨?_, ?_⟩, fun hos i hi => ?_,
    fun b hos i hi => exec_binaryLogic_underflow hi (by simp [hos])⟩
  · rw [← logicNot_eq, exec, execNot, conclude_osPop_cons hos]
    rw [hos, List.length_cons] at hcap
    exact conclude_osPush_of_lt (by omega) 1 (logicNot a)
  · rw [← logicAnd_eq, exec_and]
    exact conclude_binaryArith_of_ok hos rfl hcap
  · rw [← logicOr_eq, exec_or]
    exact conclude_binaryArith_of_ok hos rfl hcap
  · rcases List.mem_cons.mp hi with rfl | hi
    · exact conclude_osPop_nil hos 1 _
    · exact exec_binaryLogic_underflow hi (by simp [hos])

/-- Settles O42: it is among the causes that no instruction raises; a selection that fails comes after the pops. -/
theorem unknownComparisonOperatorIsUnreachable : Obligations.UnknownComparisonOperatorIsUnreachable := by
  refine ⟨fun i s t h hfk => ?_, fun m s a b rest hm hos => ?_⟩
  · rcases exec_next_cases i s t h with ⟨_, _, _, _, _, rfl, _⟩ | ⟨_, c, rfl, _, _, hc⟩
    · exact hfk
    · cases c with
      | unknownComparisonOperator => exact absurd rfl hc.not_unknown
      | _ => cases hfk
  · rw [evalCompare, popTwo_cons hos, relationSelect_eq_none hm]
    rfl

/-- Settles O21: the bounded-stack unit on the frame stack. -/
theorem frameStackOperationContracts : Obligations.FrameStackOperationContracts :=
  fun _ _ => ⟨fsPush_of_lt, fsPush_of_le, fun h => ⟨fsPop_nil h, fsPeek_nil h⟩,
    fun _ _ h => ⟨fsPop_cons h, fsPeek_cons h⟩⟩

/-- Settles O24: both meanings are one advance and one event, and HALT's one run state more. -/
theorem nopAndHaltEffects : Obligations.NopAndHaltEffects := fun _ => ⟨rfl, rfl⟩

/-- Settles O25, by the room on the operand stack. -/
theorem pushEffect : Obligations.PushEffect :=
  fun imm s => ⟨fun hroom => conclude_osPush_of_lt (l := s.os) hroom 2 imm,
    fun hfull => conclude_osPush_of_le hfull 2 imm⟩

/-- Settles O26, by whether there is an element. -/
theorem popAndPrintEffects : Obligations.PopAndPrintEffects := by
  refine fun s => ⟨fun v rest hos => ⟨conclude_osPop_cons hos 1 _, conclude_osPop_cons hos 1 _⟩, fun hos i hi => ?_⟩
  simp only [List.mem_cons, List.not_mem_nil, or_false] at hi
  rcases hi with rfl | rfl
  · exact conclude_osPop_nil hos 1 _
  · exact conclude_osPop_nil hos 1 _

/-- Settles O27: the peek comes before the push, so an empty stack underflows at every capacity. -/
theorem dupEffect : Obligations.DupEffect := by
  refine fun s => ⟨fun v rest hos => ?_, exec_dup_of_nil⟩
  rw [exec_dup_of_cons hos, ← hos]
  exact ⟨fun hroom => conclude_osPush_of_lt (l := s.os) hroom 1 v, fun hfull => conclude_osPush_of_le hfull 1 v⟩

/-- Settles O28, by the frame and then by the room on the operand stack. -/
theorem loadEffect : Obligations.LoadEffect := by
  refine fun id s => ⟨fun f frames hfs => ⟨fun hroom => exec_load_of_lt hfs hroom id, fun hfull => ?_⟩,
    fun hfs => exec_load_of_nil hfs id⟩
  rw [exec_load_of_cons hfs]
  exact conclude_osPush_of_le hfull 2 (varRead f id)

/-- Settles O29: the frame written is the top one, by the laws of the variable store. -/
theorem storeEffect : Obligations.StoreEffect := by
  refine fun id s => ⟨fun v rest f frames hos hfs hwf => ⟨varWrite f id v, ?_, varWrite_ra f id v,
    Memory.read_write_same hwf id v, fun other ho => Memory.read_write_other v ho⟩,
    fun hos => conclude_osPop_nil hos 2 _, fun v rest hos hfs => exec_store_of_no_frame hos hfs id⟩
  rw [exec_store_of_cons hos hfs, State.setTopFrame, State.setOs_fs, State.advance_fs, hfs]
  rfl

/-- Settles O43: JMP does not look at its target, and the fetch of the next step does. -/
theorem jmpEffect : Obligations.JmpEffect := by
  refine fun s => ⟨fun target rest hos => ⟨?_, fun hrs hout => ?_⟩, fun hos => conclude_osPop_nil hos 1 _⟩
  · rw [exec_jmp_of_cons hos]
    rfl
  · exact step_of_outside (s := { s with ip := target, os := rest }) hrs hout

/-- Settles O44, by the condition and by what lies under it. -/
theorem jifEffect : Obligations.JifEffect := by
  refine fun s => ⟨fun c target rest hc hos => ?_, fun rest hos => ?_, fun c hc hos => ?_,
    fun hos => conclude_osPop_nil hos 1 _⟩
  · rw [exec_jif_of_ne_zero hc hos, osPop_cons (s := (s.advance 1).setOs (target :: rest)) rfl]
    rfl
  · rw [exec_jif_of_zero hos]
    rfl
  · rw [exec_jif_of_ne_zero hc hos, osPop_nil (s := (s.advance 1).setOs []) rfl]
    rfl

end Sys2Proof.Machine
end

section
/-! What every instruction leaves unchanged, by whether it completes or faults (spec/10_state.md R13, R22, R24 to R26,
60_exceptions.md R147, R148). -/

namespace Sys2Proof.Machine

section Frame

variable {i : Instr} {s t : State}

/-- An instruction that leaves a state Faulted which was not so before has faulted. -/
theorem faultsTo_of_faulted (hs : s.rs ≠ .faulted) (h : exec i s = .next t) (ht : t.rs = .faulted) :
    FaultsTo i s t := by
  rcases exec_next_cases i s t h with ⟨_, _, _, _, _, rfl, _, _, ⟨_, hrs⟩ | ⟨_, hrs⟩, _⟩ | hfaults
  · exact absurd (hrs.symm.trans ht) hs
  · cases hrs.symm.trans ht
  · exact hfaults

theorem completesTo_of_not_faulted (h : exec i s = .next t) (ht : t.rs ≠ .faulted) : CompletesTo i s t := by
  rcases exec_next_cases i s t h with hcompletes | ⟨_, _, rfl, _⟩
  · exact hcompletes
  · exact absurd rfl ht

/-- The frame stack after an instruction: as it was, or with the one cell that STORE writes. -/
theorem exec_fs_cases (h : exec i s = .next t) :
    t.fs = s.fs ∨ ∃ id v f frames, i = .store id ∧ s.fs = f :: frames ∧ t.fs = varWrite f id v :: frames := by
  rcases exec_next_cases i s t h with
    ⟨_, _, _, _, _, rfl, _, _, _, _, hfs | ⟨id, f, frames, v, _, hi, _, _, hfs, hfs'⟩⟩ | ⟨_, _, rfl, _⟩
  · exact .inl hfs
  · exact .inr ⟨id, v, f, frames, hi, hfs, hfs'⟩
  · exact .inl rfl

theorem exec_keeps_return_addresses (h : exec i s = .next t) : t.fs.map (·.ra) = s.fs.map (·.ra) := by
  rcases exec_fs_cases h with hfs | ⟨id, v, f, frames, _, hfs, hfs'⟩
  · rw [hfs]
  · rw [hfs, hfs', List.map_cons, List.map_cons, varWrite_ra]

theorem exec_keeps_trace (hnop : i ≠ .nop) (hhalt : i ≠ .halt) (hprint : i ≠ .printI) (h : exec i s = .next t) :
    t.trace = s.trace := by
  rcases exec_next_cases i s t h with ⟨_, _, _, _, _, rfl, _, _, _, htrace, _⟩ | ⟨_, _, rfl, _⟩
  · simp [htrace hnop hhalt hprint]
  · rfl

end Frame

end Sys2Proof.Machine
end

section
/-! The statements about what every instruction leaves unchanged (spec/10_state.md, 20_memory.md, 60_exceptions.md
R147, R148). -/

namespace Sys2Proof.Machine

/-- Settles O46: an instruction that newly ends Faulted is in fault entry, after its slots and some of its pops. -/
theorem faultingInstructionLeavesStoreAndTrace : Obligations.FaultingInstructionLeavesStoreAndTrace := by
  intro i s t hs h ht
  obtain ⟨os', c, rfl, hsuffix, _, _⟩ := faultsTo_of_faulted hs h ht
  exact ⟨rfl, c.kind_ne_none, rfl, rfl, rfl, rfl, hsuffix⟩

/-- Settles O47: completion leaves the fault record, and sets no run state but HALT's. -/
theorem onlyAFaultWritesTheFaultRecord : Obligations.OnlyAFaultWritesTheFaultRecord := by
  intro i s t h ht
  obtain ⟨_, _, _, _, _, rfl, _, _, ⟨hi, hrs⟩ | ⟨hi, hrs⟩, _⟩ := completesTo_of_not_faulted h ht
  · exact ⟨rfl, rfl, rfl, fun _ => hrs, fun hhalt => absurd hhalt hi⟩
  · exact ⟨rfl, rfl, rfl, fun hno => absurd hi hno, fun _ => hrs⟩

/-- Settles O48: STORE writes one cell of the top frame, or faults and writes none. -/
theorem onlyStoreWritesVariables : Obligations.OnlyStoreWritesVariables := by
  refine ⟨fun i s t hi h => ?_, fun id s t f frames hfs _ h => ?_⟩
  · rcases exec_fs_cases h with hsame | ⟨id, _, _, _, hstore, _⟩
    · exact hsame
    · exact absurd hstore (hi id)
  · rcases exec_fs_cases h with hsame | ⟨id', v, g, rest, hstore, hfs', hwrite⟩
    · exact ⟨f, hsame.trans hfs, rfl, fun _ _ => rfl⟩
    · obtain rfl : id = id' := Instr.store.inj hstore
      obtain ⟨rfl, rfl⟩ : f = g ∧ frames = rest := by simpa [hfs] using hfs'
      exact ⟨varWrite f id v, hwrite, varWrite_ra f id v, fun other ho => Memory.read_write_other v ho⟩

/-- Settles O49: both completion and fault entry keep what lies below the operands. -/
theorem elementsBelowTheOperandsAreUntouched : Obligations.ElementsBelowTheOperandsAreUntouched := by
  intro i s t h
  rcases exec_next_cases i s t h with ⟨_, _, _, _, _, rfl, hbelow, _⟩ | ⟨_, _, rfl, _, hbelow, _⟩
  · exact hbelow
  · exact hbelow

/-- Settles O50: the four that emit are evaluated, PRINT_I by whether there is an element. -/
theorem onlyFourCasesEmitEvents : Obligations.OnlyFourCasesEmitEvents := by
  refine ⟨fun i s t => exec_keeps_trace, fun s t h => ?_, fun s t h => ?_,
    fun s t h => ⟨fun hos => ?_, fun v rest hos => ?_⟩, fun w s t h => ?_⟩
  · cases h
    exact State.emit_trace ..
  · cases h
    exact State.emit_trace ..
  · cases (conclude_osPop_nil hos 1 _).symm.trans h
    rfl
  · cases (conclude_osPop_cons hos 1 _).symm.trans h
    exact State.emit_trace ..
  · cases h
    exact State.emit_trace ..

end Sys2Proof.Machine
end

section
/-! What no instruction reads (spec/10_state.md R20, R26): the events put out before, and return addresses. A change
of both at once goes through every operation, and so through every instruction. -/

namespace Sys2Proof.Machine

/-- The frame with its return address changed by `g`. -/
def Frame.mapRa (g : Word → Word) (f : Frame) : Frame := { f with ra := g f.ra }

/-- The state with the events `old` put out before its own and every return address changed by `g`. -/
def State.changeUnread (old : List TraceEvent) (g : Word → Word) (s : State) : State :=
  { s with fs := s.fs.map (Frame.mapRa g), trace := old ++ s.trace }

/-- The same end of an operation, with its value changed by `a` and its state by `u`. -/
def Res.map {α : Type} (a : α → α) (u : State → State) : Res α → Res α
  | .ok x s => .ok (a x) (u s)
  | .raised c s => .raised c (u s)

theorem State.withReturnAddress_eq_changeUnread (r : Word) (s : State) :
    s.withReturnAddress r = s.changeUnread [] fun _ => r := rfl

theorem State.withEarlierTrace_eq_changeUnread (old : List TraceEvent) (s : State) :
    s.withEarlierTrace old = s.changeUnread old id := by
  have hid : Frame.mapRa id = id := rfl
  simp [State.withEarlierTrace, State.changeUnread, hid]

/-! ## Sequences and the end of an instruction -/

/-- If the continuation does after the change what it does before it, changed, then so does the sequence. -/
theorem Res.map_andThen {α β : Type} {a : α → α} {b : β → β} {u : State → State} {k : α → State → Res β}
    (hk : ∀ x s, k (a x) (u s) = (k x s).map b u) (r : Res α) : (r.map a u).andThen k = (r.andThen k).map b u := by
  cases r with
  | ok x s => exact hk x s
  | raised c s => rfl

section ChangeUnread

variable {old : List TraceEvent} {g : Word → Word}

theorem conclude_changeUnread {r r' : Res Unit} (h : r' = r.map id (State.changeUnread old g)) (cur : Word) :
    conclude cur r' = mapNext (State.changeUnread old g) (conclude cur r) := by
  subst h
  cases r <;> rfl

theorem emit_changeUnread (k : TraceKind) (v : Word) (s : State) :
    (s.changeUnread old g).emit k v = (s.emit k v).changeUnread old g := by
  simp [State.emit, State.changeUnread, List.append_assoc]

theorem setTopFrame_changeUnread (id v : Word) (f : Frame) (s : State) :
    (s.changeUnread old g).setTopFrame (varWrite (f.mapRa g) id v) =
      (s.setTopFrame (varWrite f id v)).changeUnread old g := by
  simp [State.setTopFrame, State.setFs, State.changeUnread, Frame.mapRa, varWrite, List.map_tail]

/-! ## The stack operations -/

theorem osPush_changeUnread (v : Word) (s : State) :
    osPush v (s.changeUnread old g) = (osPush v s).map id (State.changeUnread old g) := by
  rcases osPush_cases v s with ⟨hlt, h⟩ | ⟨hle, h⟩ <;> rw [h]
  · exact osPush_of_lt (s := s.changeUnread old g) hlt
  · exact osPush_of_le (s := s.changeUnread old g) hle

theorem osPop_changeUnread (s : State) :
    osPop (s.changeUnread old g) = (osPop s).map id (State.changeUnread old g) := by
  rcases osPop_cases s with ⟨v, rest, hos, h⟩ | ⟨hos, h⟩ <;> rw [h]
  · exact osPop_cons (s := s.changeUnread old g) hos
  · exact osPop_nil (s := s.changeUnread old g) hos

theorem osPeek_changeUnread (s : State) :
    osPeek (s.changeUnread old g) = (osPeek s).map id (State.changeUnread old g) := by
  rcases osPeek_cases s with ⟨v, rest, hos, h⟩ | ⟨hos, h⟩ <;> rw [h]
  · exact osPeek_cons (s := s.changeUnread old g) hos
  · exact osPeek_nil (s := s.changeUnread old g) hos

/-- A peek at the frame stack sees the changed return address. -/
theorem fsPeek_changeUnread (s : State) :
    fsPeek (s.changeUnread old g) = (fsPeek s).map (Frame.mapRa g) (State.changeUnread old g) := by
  rcases fsPeek_cases s with ⟨f, frames, hfs, h⟩ | ⟨hfs, h⟩ <;> rw [h]
  · exact fsPeek_cons (rest := frames.map (Frame.mapRa g)) (by simp [State.changeUnread, hfs])
  · exact fsPeek_nil (by simp [State.changeUnread, hfs])

theorem popOne_changeUnread {k : Word → State → Res Unit}
    (hk : ∀ v s, k v (s.changeUnread old g) = (k v s).map id (State.changeUnread old g)) (s : State) :
    (osPop (s.changeUnread old g)).andThen k = ((osPop s).andThen k).map id (State.changeUnread old g) := by
  rw [osPop_changeUnread]
  exact Res.map_andThen (a := id) hk _

theorem popTwo_changeUnread {k : Word → Word → State → Res Unit}
    (hk : ∀ a b s, k a b (s.changeUnread old g) = (k a b s).map id (State.changeUnread old g)) (s : State) :
    popTwo (s.changeUnread old g) k = (popTwo s k).map id (State.changeUnread old g) :=
  popOne_changeUnread (fun b s1 => popOne_changeUnread (fun a s2 => hk a b s2) s1) s

theorem pushResult_changeUnread (f : Word → Word → Word) (s : State) :
    popTwo (s.changeUnread old g) (fun a b s2 => osPush (f a b) s2) =
      (popTwo s fun a b s2 => osPush (f a b) s2).map id (State.changeUnread old g) :=
  popTwo_changeUnread (fun a b => osPush_changeUnread (f a b)) s

theorem binaryArith_changeUnread (op : Configuration → Word → Word → Except ArithmeticCause Word) (s : State) :
    binaryArith op (s.changeUnread old g) = (binaryArith op s).map id (State.changeUnread old g) := by
  refine popTwo_changeUnread (fun a b s2 => ?_) s
  have hcfg : (s2.changeUnread old g).cfg = s2.cfg := rfl
  rw [hcfg]
  cases op s2.cfg a b with
  | ok r => exact osPush_changeUnread r s2
  | error e => rfl

theorem evalCompare_changeUnread (m : Mnemonic) (s : State) :
    evalCompare m (s.changeUnread old g) = (evalCompare m s).map id (State.changeUnread old g) := by
  refine popTwo_changeUnread (fun a b s2 => ?_) s
  cases relationSelect m with
  | none => rfl
  | some rel => exact osPush_changeUnread (asInt (rel.holds a b)) s2

/-! ## The instructions -/

/-- Every instruction does with the changed state what it does with the state, changed. -/
theorem exec_changeUnread (i : Instr) (s : State) :
    exec i (s.changeUnread old g) = mapNext (State.changeUnread old g) (exec i s) := by
  cases i with
  | nop => exact congrArg Host.Outcome.next (emit_changeUnread .nop 0 (s.advance 1))
  | halt => exact congrArg (fun t => Host.Outcome.next (t.setRs .halted)) (emit_changeUnread .halt 0 (s.advance 1))
  | push v => exact conclude_changeUnread (osPush_changeUnread v (s.advance 2)) s.ip
  | pop => exact conclude_changeUnread (popOne_changeUnread (fun _ _ => rfl) (s.advance 1)) s.ip
  | dup =>
    refine conclude_changeUnread (r' := (osPeek ((s.advance 1).changeUnread old g)).andThen _) ?_ s.ip
    rw [osPeek_changeUnread]
    exact Res.map_andThen osPush_changeUnread _
  | load id =>
    refine conclude_changeUnread (r' := (fsPeek ((s.advance 2).changeUnread old g)).andThen _) ?_ s.ip
    rw [fsPeek_changeUnread]
    exact Res.map_andThen (fun f => osPush_changeUnread (varRead f id)) _
  | store id =>
    refine conclude_changeUnread (popOne_changeUnread (fun v s1 => ?_) (s.advance 2)) s.ip
    rw [fsPeek_changeUnread]
    refine Res.map_andThen (a := Frame.mapRa g) (fun f s2 => ?_) _
    exact congrArg (Res.ok ()) (setTopFrame_changeUnread id v f s2)
  | printI =>
    refine conclude_changeUnread (popOne_changeUnread (fun v s1 => ?_) (s.advance 1)) s.ip
    exact congrArg (Res.ok ()) (emit_changeUnread .print v s1)
  | add => exact conclude_changeUnread (binaryArith_changeUnread aluAdd (s.advance 1)) s.ip
  | sub => exact conclude_changeUnread (binaryArith_changeUnread aluSub (s.advance 1)) s.ip
  | mul => exact conclude_changeUnread (binaryArith_changeUnread aluMul (s.advance 1)) s.ip
  | div => exact conclude_changeUnread (binaryArith_changeUnread aluDiv (s.advance 1)) s.ip
  | mod => exact conclude_changeUnread (binaryArith_changeUnread aluMod (s.advance 1)) s.ip
  | not =>
    exact conclude_changeUnread (popOne_changeUnread (fun a => osPush_changeUnread (logicNot a)) (s.advance 1)) s.ip
  | and => exact conclude_changeUnread (pushResult_changeUnread logicAnd (s.advance 1)) s.ip
  | or => exact conclude_changeUnread (pushResult_changeUnread logicOr (s.advance 1)) s.ip
  | cmpE => exact conclude_changeUnread (evalCompare_changeUnread .cmpE (s.advance 1)) s.ip
  | cmpNe => exact conclude_changeUnread (evalCompare_changeUnread .cmpNe (s.advance 1)) s.ip
  | cmpG => exact conclude_changeUnread (evalCompare_changeUnread .cmpG (s.advance 1)) s.ip
  | cmpGe => exact conclude_changeUnread (evalCompare_changeUnread .cmpGe (s.advance 1)) s.ip
  | cmpL => exact conclude_changeUnread (evalCompare_changeUnread .cmpL (s.advance 1)) s.ip
  | cmpLe => exact conclude_changeUnread (evalCompare_changeUnread .cmpLe (s.advance 1)) s.ip
  | jmp => exact conclude_changeUnread (popOne_changeUnread (fun _ _ => rfl) (s.advance 1)) s.ip
  | jif =>
    refine conclude_changeUnread (popOne_changeUnread (fun c s1 => ?_) (s.advance 1)) s.ip
    split
    · exact popOne_changeUnread (fun _ _ => rfl) s1
    · rfl

end ChangeUnread

theorem exec_withReturnAddress (r : Word) (i : Instr) (s : State) :
    exec i (s.withReturnAddress r) = mapNext (State.withReturnAddress r) (exec i s) := by
  rw [funext (State.withReturnAddress_eq_changeUnread r)]
  exact exec_changeUnread i s

/-! ## A step after other earlier events -/

theorem exec_withEarlierTrace (old : List TraceEvent) (i : Instr) (s : State) :
    exec i (s.withEarlierTrace old) = mapNext (State.withEarlierTrace old) (exec i s) := by
  rw [funext (State.withEarlierTrace_eq_changeUnread old)]
  exact exec_changeUnread i s

theorem execInvalid_withEarlierTrace (old : List TraceEvent) (w : Word) (s : State) :
    execInvalid w (s.withEarlierTrace old) = mapNext (State.withEarlierTrace old) (execInvalid w s) := by
  rw [funext (State.withEarlierTrace_eq_changeUnread old)]
  exact congrArg Host.Outcome.next (emit_changeUnread .invalid w (s.advance 1))

theorem startReady_withEarlierTrace (old : List TraceEvent) (s : State) :
    startReady (s.withEarlierTrace old) = (startReady s).withEarlierTrace old := by
  have hroom : (s.withEarlierTrace old).fs.length < (s.withEarlierTrace old).cfg.frameCap ↔
      s.fs.length < s.cfg.frameCap := Iff.rfl
  rcases startReady_cases s with ⟨hlt, h⟩ | ⟨hle, h⟩ <;>
    rcases startReady_cases (s.withEarlierTrace old) with ⟨hlt', h'⟩ | ⟨hle', h'⟩ <;> rw [h, h']
  · rfl
  · exact absurd (hroom.mpr hlt) (not_lt.mpr hle')
  · exact absurd (hroom.mp hlt') (not_lt.mpr hle)
  · rfl

/-- The fetches read the stream and `ip` alone. -/
theorem stepRunning_withEarlierTrace (old : List TraceEvent) (s : State) :
    stepRunning (s.withEarlierTrace old) = mapNext (State.withEarlierTrace old) (stepRunning s) := by
  rcases fetchInstr_cases s with ⟨w, m, hw, hm, hf, h⟩ | ⟨w, m, imm, hw, hm, hf, himm, h⟩ | ⟨w, hw, hm, h⟩ |
    ⟨hout, h⟩ | ⟨w, m, hw, hm, hf, hlast, h⟩
  · rw [stepRunning_of_instr h, ← exec_withEarlierTrace]
    exact stepRunning_of_instr (fetchInstr_of_op (s := s.withEarlierTrace old) hw hm hf)
  · rw [stepRunning_of_instr h, ← exec_withEarlierTrace]
    exact stepRunning_of_instr (fetchInstr_of_opImm (s := s.withEarlierTrace old) hw hm hf himm)
  · rw [stepRunning_of_invalid h, ← execInvalid_withEarlierTrace]
    exact stepRunning_of_invalid (fetchInstr_of_invalid (s := s.withEarlierTrace old) hw hm)
  · rw [stepRunning_of_raised h]
    exact stepRunning_of_raised (fetchInstr_of_outside (s := s.withEarlierTrace old) hout)
  · rw [stepRunning_of_raised h]
    exact stepRunning_of_raised (fetchInstr_of_missing_immediate (s := s.withEarlierTrace old) hw hm hf hlast)

end Sys2Proof.Machine
end

section
/-! The statements about what no instruction reads (spec/10_state.md R19, R20, R26, 45_control_flow.md R133). -/

namespace Sys2Proof.Machine

/-- Settles O51, by the run state the step begins in. -/
theorem traceIsNeverRead : Obligations.TraceIsNeverRead := by
  intro old s
  have hsame : (s.withEarlierTrace old).rs = s.rs := rfl
  cases hrs : s.rs with
  | ready =>
    rw [step_of_ready hrs, step_of_ready (hsame.trans hrs), startEvent_of_ready hrs,
      startEvent_of_ready (hsame.trans hrs), startReady_withEarlierTrace]
    rfl
  | running =>
    rw [step_of_running hrs, step_of_running (hsame.trans hrs), stepRunning_withEarlierTrace]
  | halted =>
    rw [step_of_halted hrs, step_of_halted (hsame.trans hrs)]
    rfl
  | faulted =>
    rw [step_of_faulted hrs, step_of_faulted (hsame.trans hrs)]
    rfl

/-- Settles O52: STORE alone writes a frame and keeps its return address, and no operation reads one. -/
theorem returnAddressIsNeverReadNorFramesDriven : Obligations.ReturnAddressIsNeverReadNorFramesDriven :=
  ⟨fun _ _ _ => exec_keeps_return_addresses, fun i r s => exec_withReturnAddress r i s⟩

end Sys2Proof.Machine
end

section
/-! The decimal rendering (spec/41_data.md R96, 92_eei_decisions.md D14): the digits that `decNat` writes are the
library's, most significant first, and the single digit 0 for zero. -/

namespace Sys2Proof.Machine

/-- The digits of the canonical numeral of `n`, most significant first. -/
def decimalDigits (n : Nat) : List Nat := if n = 0 then [0] else (Nat.digits 10 n).reverse

theorem decimalDigits_of_lt {n : Nat} (h : n < 10) : decimalDigits n = [n] := by
  by_cases h0 : n = 0
  · rw [decimalDigits, if_pos h0, h0]
  · rw [decimalDigits, if_neg h0, Nat.digits_of_lt 10 n h0 h, List.reverse_singleton]

theorem decimalDigits_of_le {n : Nat} (h : 10 ≤ n) : decimalDigits n = decimalDigits (n / 10) ++ [n % 10] := by
  rw [decimalDigits, decimalDigits, if_neg (by omega), if_neg (by omega),
    Nat.digits_def' (by decide) (by omega), List.reverse_cons]

theorem decimalDigits_ne_nil (n : Nat) : decimalDigits n ≠ [] := by
  unfold decimalDigits
  split
  · simp
  · simpa [Nat.digits_ne_nil_iff_ne_zero] using ‹_›

theorem lt_of_mem_decimalDigits {n d : Nat} (h : d ∈ decimalDigits n) : d < 10 := by
  unfold decimalDigits at h
  split at h
  · simp_all
  · exact Nat.digits_lt_base (by decide) (List.mem_reverse.mp h)

/-- Read in base ten the digits give the number. -/
theorem foldl_decimalDigits (n : Nat) : (decimalDigits n).foldl (fun acc d => 10 * acc + d) 0 = n := by
  unfold decimalDigits
  split
  · simp_all
  · rw [List.foldl_reverse]
    have hvalue := Nat.ofDigits_digits 10 n
    rw [Nat.ofDigits_eq_foldr] at hvalue
    simpa [Nat.add_comm] using hvalue

/-- A leading 0 stands alone. -/
theorem decimalDigits_of_head_zero {n : Nat} (h : (decimalDigits n).head? = some 0) : decimalDigits n = [0] := by
  by_cases h0 : n = 0
  · rw [decimalDigits, if_pos h0]
  · have hne : Nat.digits 10 n ≠ [] := Nat.digits_ne_nil_iff_ne_zero.mpr h0
    rw [decimalDigits, if_neg h0, List.head?_reverse, List.getLast?_eq_some_getLast hne, Option.some.injEq] at h
    exact absurd h (Nat.getLast_digit_ne_zero 10 h0)

/-- With fuel enough the writer puts exactly these digits before what it has written. -/
theorem decDigits_eq (fuel n : Nat) (acc : List Char) (h : n < fuel) :
    decDigits fuel n acc = (decimalDigits n).map digitChar ++ acc := by
  induction fuel generalizing n acc with
  | zero => omega
  | succ fuel ih =>
    rw [decDigits]
    split
    · rw [decimalDigits_of_lt (by omega), Nat.mod_eq_of_lt (by omega)]
      rfl
    · rw [ih (n / 10) _ (by omega), decimalDigits_of_le (n := n) (by omega)]
      simp

theorem decNat_eq (n : Nat) : decNat n = (decimalDigits n).map digitChar := by
  rw [decNat, decDigits_eq (n + 1) n [] n.lt_succ_self, List.append_nil]

theorem decChars_eq (v : Word) :
    decChars v = (if v < 0 then ['-'] else []) ++ (decimalDigits v.natAbs).map digitChar := by
  rw [decChars, decNat_eq]
  split <;> rfl

end Sys2Proof.Machine
end

section
/-! The statement about the decimal rendering (spec/41_data.md R96). -/

namespace Sys2Proof.Machine

/-- Settles O54: the digits are those of the library's `Nat.digits`, and the sign is put before them. -/
theorem decimalRenderingIsExact : Obligations.DecimalRenderingIsExact := by
  intro v
  refine ⟨decimalDigits v.natAbs, decimalDigits_ne_nil _, fun d => lt_of_mem_decimalDigits, foldl_decimalDigits _,
    decimalDigits_of_head_zero, ?_⟩
  rw [dec, decChars_eq]
  rfl

end Sys2Proof.Machine
end
